-- ==== Sys2Proof/Word.lean ====
section
/-! DEFINITION. The word types of PIA CORE: storage units, command words and response words. -/

namespace Sys2Proof

/-- One storage unit, and one data value: 8 bits (rules R12, R20, R64). -/
abbrev Byte := BitVec 8

/-- One command word `CW`: 32 bits, bit 0 least significant (rules R13, R60). -/
abbrev CommandWord := BitVec 32

/-- One response word `RSP`: 16 bits (rule R68). -/
abbrev ResponseWord := BitVec 16

end Sys2Proof
end

