-- ==== Sys2Proof/Config.lean ====
section
/-! DEFINITION. The constants of one PIA CORE instance: BITS, LEN and the derived NBYTES (rules R1, R5, R6, R7, R27). -/

namespace Sys2Proof

/-- The legal values of `BITS`, 1 to 8 (rule R5). No other width is a PIA CORE, so no other value can be written. -/
inductive BitWidth where
  | b1 | b2 | b3 | b4 | b5 | b6 | b7 | b8
deriving DecidableEq, Repr

/-- The width as a number. -/
def BitWidth.toNat : BitWidth → Nat
  | .b1 => 1 | .b2 => 2 | .b3 => 3 | .b4 => 4 | .b5 => 5 | .b6 => 6 | .b7 => 7 | .b8 => 8

/-- The width named by a number, where there is one (rule R5). -/
def BitWidth.ofNat? : Nat → Option BitWidth
  | 1 => some .b1 | 2 => some .b2 | 3 => some .b3 | 4 => some .b4
  | 5 => some .b5 | 6 => some .b6 | 7 => some .b7 | 8 => some .b8
  | _ => none

/-- The two constants of an instance (rule R27): `BITS` and `LEN`, with `0 <= LEN <= 65536` (rule R6). -/
structure Config where
  width : BitWidth
  count : Fin 65537
deriving DecidableEq, Repr

/-- `BITS` (rule R5). -/
def Config.bits (cfg : Config) : Nat := cfg.width.toNat

/-- `LEN` (rule R6). -/
def Config.len (cfg : Config) : Nat := cfg.count.val

/-- The size function of rule R130, `ceil(bits * len / 8)`. -/
def size (bits len : Nat) : Nat := (bits * len + 7) / 8

/-- `NBYTES` (rule R7), the number of storage units. -/
def Config.nbytes (cfg : Config) : Nat := size cfg.bits cfg.len

/-- `P`, the number of pad bits of the last unit (rule R45). -/
def Config.padBits (cfg : Config) : Nat := 8 * cfg.nbytes - cfg.bits * cfg.len

/-- Building an instance from two numbers: refused outside `1 <= BITS <= 8`, `0 <= LEN <= 65536` (rules R5, R6). -/
def Config.build? (bits len : Nat) : Option Config :=
  match BitWidth.ofNat? bits with
  | none => none
  | some w => if h : len < 65537 then some { width := w, count := ⟨len, h⟩ } else none

/-- The identifier string of an instance, `PIA-CORE-B<BITS>-L<LEN>` (rule R1). -/
def Config.identifier (cfg : Config) : String :=
  "PIA-CORE-B" ++ toString cfg.bits ++ "-L" ++ toString cfg.len

/-- The instance `State.reset` is a reset of: the worked instance PIA-CORE-B3-L9 (rule R1's example).
DESIGN CHOICE, log entry 1: the spec leaves BITS and LEN to whoever builds the instance. Unsafe only for a claim about
`State.reset` alone: `step` and `exec` take the instance from the state, so claims over all states cover every instance. -/
def Config.worked : Config := { width := .b3, count := 9 }

end Sys2Proof
end

