-- ==== Sys2Proof/Syntax.lean ====
section
/-! DEFINITION. The five commands of PIA CORE, one constructor per row of spec/opcode_table.json, and what a word can decode to. -/

namespace Sys2Proof

/-- A command (rules R62, R69). Indexes and addresses are natural numbers, as in the semantic rules (rule R8); that
they fit the 16-bit field `IDX` is checked in WellFormed. Values are the 8-bit field `VAL` (rule R64). -/
inductive Instr where
  /-- `GET index`: read an element (rule R90). -/
  | get (index : Nat)
  /-- `SET index, value`: write an element (rule R100). -/
  | set (index : Nat) (value : Byte)
  /-- `CLR index`: zero an element (rule R106). -/
  | clr (index : Nat)
  /-- `RDB addr`: read a storage unit (rule R120). -/
  | rdb (addr : Nat)
  /-- `WRB addr, byte`: write a storage unit (rule R121). -/
  | wrb (addr : Nat) (byte : Byte)
deriving DecidableEq, Repr

/-- Why a word is illegal (rule R66). -/
inductive Illegal where
  /-- `RSV` is not zero, whatever `OP` is. -/
  | reservedField (rsv : BitVec 4)
  /-- `OP` is `0x0` or `0x6` to `0xF`. -/
  | unassignedOpcode (op : BitVec 4)
deriving DecidableEq, Repr

/-- What a command word decodes to: one of the five commands, or illegal with the reason (rules R66, R69). -/
inductive Decoded where
  | command (i : Instr)
  | illegal (why : Illegal)
deriving DecidableEq, Repr

end Sys2Proof
end

