-- ==== Sys2Proof/WellFormed.lean ====
section
/-! DEFINITION. Which commands have an encoding: the index or address fits the 16-bit field IDX (rules R63, R70). -/

namespace Sys2Proof

/-- `IDXW`, the width of the index field (rule R8). -/
def indexWidth : Nat := 16

/-- An index or address that `IDX` can carry: 0 to 65535 (rules R63, R70). -/
def fitsIndex (n : Nat) : Bool := decide (n < 2 ^ indexWidth)

/-- The command has an encoding. The value operands are 8 bits by their type (rule R64). -/
def Instr.wf : Instr → Bool
  | .get index => fitsIndex index
  | .set index _ => fitsIndex index
  | .clr index => fitsIndex index
  | .rdb addr => fitsIndex addr
  | .wrb addr _ => fitsIndex addr

/-- `Instr.wf` as a proposition. -/
abbrev WellFormed (i : Instr) : Prop := i.wf = true

end Sys2Proof
end

