-- ==== Sys2Proof/Decode.lean ====
section
/-! DEFINITION. The decoder of command words and, after it, the encoder (rules R61 to R66, R69). -/

namespace Sys2Proof

/-- `OP = CW[31:28]` (rule R61). -/
def opField (w : CommandWord) : BitVec 4 := w.extractLsb' 28 4

/-- `RSV = CW[27:24]` (rule R61). -/
def rsvField (w : CommandWord) : BitVec 4 := w.extractLsb' 24 4

/-- `IDX = CW[23:8]` (rule R61). -/
def idxField (w : CommandWord) : BitVec 16 := w.extractLsb' 8 16

/-- `VAL = CW[7:0]` (rule R61). -/
def valField (w : CommandWord) : Byte := w.extractLsb' 0 8

/-- The decode function of rule R69: `RSV` first, then `OP`. Total: every word is a command or illegal by name (rule R66).
`VAL` of GET, CLR and RDB is ignored (rule R65). -/
def decode (w : CommandWord) : Decoded :=
  if rsvField w ≠ 0#4 then .illegal (.reservedField (rsvField w))
  else
    match (opField w).toNat with
    | 1 => .command (.get (idxField w).toNat)
    | 2 => .command (.set (idxField w).toNat (valField w))
    | 3 => .command (.clr (idxField w).toNat)
    | 4 => .command (.rdb (idxField w).toNat)
    | 5 => .command (.wrb (idxField w).toNat (valField w))
    | _ => .illegal (.unassignedOpcode (opField w))

/-- The command an outcome of decoding carries, if any. -/
def Decoded.command? : Decoded → Option Instr
  | .command i => some i
  | .illegal _ => none

/-- The decoder on a word numbered as spec/opcode_table.json numbers it. A command word is one 32-bit word with bit 0
least significant and is never stored in bytes (rule R60), so the table's number is the word itself. -/
def decodeTableWord (nbits w : Nat) : Option Instr :=
  (decode (BitVec.ofNat 32 (w % 2 ^ nbits))).command?

/-- The opcode of each command (rule R62). -/
def Instr.opcode : Instr → BitVec 4
  | .get _ => 0x1#4
  | .set _ _ => 0x2#4
  | .clr _ => 0x3#4
  | .rdb _ => 0x4#4
  | .wrb _ _ => 0x5#4

/-- The word with these fields and `RSV = 0` (rule R61). -/
def packCommand (op : BitVec 4) (idx : BitVec 16) (val : Byte) : CommandWord :=
  op ++ (0#4) ++ idx ++ val

/-- The encoder of rule R69: `RSV = 0` and, for GET, CLR and RDB, `VAL = 0`. -/
def encode : Instr → CommandWord
  | .get index => packCommand 0x1#4 (BitVec.ofNat 16 index) 0#8
  | .set index value => packCommand 0x2#4 (BitVec.ofNat 16 index) value
  | .clr index => packCommand 0x3#4 (BitVec.ofNat 16 index) 0#8
  | .rdb addr => packCommand 0x4#4 (BitVec.ofNat 16 addr) 0#8
  | .wrb addr byte => packCommand 0x5#4 (BitVec.ofNat 16 addr) byte

end Sys2Proof
end

