-- ==== Sys2Proof/Machine/State.lean ====
section
/-! DEFINITION. The state of the machine as plain data, the reasons a step can stop, and the state after reset. -/

namespace Sys2Proof.Machine

/-- The storage `S` (rule R20): (unit number, byte) pairs in the canonical form of `Memory.wf`. -/
abbrev Memory := List Host.Cell

/-- The causes a command can fault with (rule R141). -/
inductive Cause where
  /-- Code 1: `index >= LEN` on GET, SET or CLR. -/
  | indexRange
  /-- Code 2: the word is none of the five commands. -/
  | illegalCmd
  /-- Code 3: `addr >= NBYTES` on RDB or WRB. -/
  | byteRange
deriving DecidableEq, Repr

/-- What the host drives on the block's input pins during one step (rule R166). -/
structure InPins where
  rst : Bool
  cmdValid : Bool
  cmd : CommandWord
deriving DecidableEq, Repr

/-- What the block shows on its output pins (rule R166); `rsp` is absent when `rsp_valid` is low. -/
structure OutPins where
  cmdReady : Bool
  rsp : Option ResponseWord
  warn : Bool
  fault : Bool
  fcause : BitVec 2
  fcmd : CommandWord
deriving DecidableEq, Repr

/-- What happens at the ports in one step (rules R146, R166, R170). -/
inductive PortEvent where
  /-- `rst` is asserted. -/
  | reset
  /-- The block is halted and `rst` is not asserted: nothing is enabled. -/
  | stuck
  /-- The block is ready and no command is offered. -/
  | idle
  /-- The block is ready and accepts this word. -/
  | accept (w : CommandWord)
deriving DecidableEq, Repr

/-- The state (rules R20, R24 to R28, R32). `cfg` is the instance's constants; `storage`, `fault`, `fcause`, `fcmd` are
the block's state; `rsp`, `warn`, `diag` are its outputs and the host's trace, kept for observation (log entry 6);
`inputs` is what the host drives, one entry a step, head first (log entry 2). -/
structure State where
  cfg : Config
  storage : Memory
  fault : Bool
  fcause : BitVec 2
  fcmd : CommandWord
  rsp : Option ResponseWord
  warn : Bool
  diag : List (Nat × Byte)
  inputs : List InPins
deriving DecidableEq, Repr

/-- The reasons a step answers no next state. -/
inductive Fault where
  /-- Raised by `step` when `FAULT = 1` and `rst` is low: "a halted state has no command step at all; the only step
  enabled is reset" (rule R146; 93_implementation_defined.md I26, treatment `stuck`). Safe. -/
  | halted
  /-- Raised by a meaning when `MemRead` or `MemWrite` names a unit outside the storage, where rule R16 does not define
  them. By rule R81 no in-range command reaches it. Safe. -/
  | unitOutsideStorage
deriving DecidableEq, Repr

/-- The reasons an instruction has no meaning. -/
inductive Refusal where
  /-- Raised by `exec` for an instruction that has no meaning yet. Safe. No arm raises it. -/
  | notModelled (mnemonic : String)
deriving DecidableEq, Repr

/-- An instance right after reset (rules R30, R170, R171): storage all zero (nothing listed), the fault registers zero,
no response, no pulse. `diag` and `inputs` are not the block's; empty is a DESIGN CHOICE, log entry 8. -/
def State.resetOf (cfg : Config) : State :=
  { cfg := cfg, storage := [], fault := false, fcause := 0#2, fcmd := 0#32,
    rsp := none, warn := false, diag := [], inputs := [] }

/-- The machine right after reset, for the instance of log entry 1. -/
def State.reset : State := State.resetOf Config.worked

end Sys2Proof.Machine
end

