-- ==== Sys2Proof/Machine/Flags.lean ====
section
/-! DEFINITION. The response word and its fields, the cause codes, and the truncation test (rules R68, R87, R101, R141). -/

namespace Sys2Proof.Machine

/-- The cause code written to `FCAUSE` and to the response (rule R141). -/
def causeCode : Cause → BitVec 2
  | .indexRange => 1#2
  | .illegalCmd => 2#2
  | .byteRange => 3#2

/-- A response word from its fields, `RSP[13:10] = 0` (rule R68). -/
def packResponse (flt wrn : Bool) (cause : BitVec 2) (data : Byte) : ResponseWord :=
  BitVec.ofBool flt ++ BitVec.ofBool wrn ++ (0#4) ++ cause ++ data

/-- The response of a command that completes: `FLT = 0`, `CAUSE = 0` (rule R68). -/
def completedResponse (wrn : Bool) (data : Byte) : ResponseWord := packResponse false wrn 0#2 data

/-- The response of a command that faults: `FLT = 1`, `WRN = 0`, `DATA = 0x00` (rules R68, R144). -/
def faultResponse (c : Cause) : ResponseWord := packResponse true false (causeCode c) 0#8

/-- `FLT = RSP[15]` (rule R68). -/
def rspFlt (r : ResponseWord) : Bool := r.getLsbD 15

/-- `WRN = RSP[14]` (rule R68). -/
def rspWrn (r : ResponseWord) : Bool := r.getLsbD 14

/-- `RSP[13:10]`, always zero (rule R68). -/
def rspZero (r : ResponseWord) : BitVec 4 := r.extractLsb' 10 4

/-- `CAUSE = RSP[9:8]` (rule R68). -/
def rspCause (r : ResponseWord) : BitVec 2 := r.extractLsb' 8 2

/-- `DATA = RSP[7:0]` (rule R68). -/
def rspData (r : ResponseWord) : Byte := r.extractLsb' 0 8

/-- `value >= 2^BITS` with `2^BITS` exact (rule R87): the condition of the truncation warning (rule R101). -/
def truncates (cfg : Config) (value : Byte) : Bool := decide (2 ^ cfg.bits ≤ value.toNat)

/-- `value mod 2^BITS` (rule R101). -/
def truncated (cfg : Config) (value : Byte) : Byte := BitVec.ofNat 8 (value.toNat % 2 ^ cfg.bits)

end Sys2Proof.Machine
end

