-- ==== Sys2Proof/Machine/Ops.lean ====
section
/-! DEFINITION. The shared operations: storage access, responses, the warning, taking a fault, reset, and the ports. -/

namespace Sys2Proof.Machine

/-! ### The storage -/

/-- What a unit that is not listed reads as: `0x00`, the reset contents (rules R30, R170). -/
def unlistedUnit : Byte := 0x00#8

/-- `S[u]` of a storage in canonical form. -/
def Memory.unitAt : Memory → Nat → Byte
  | [], _ => unlistedUnit
  | (a, b) :: rest, u => if u < a then unlistedUnit else if u = a then b else Memory.unitAt rest u

/-- Put a unit in front of a list, unless its value is the one an unlisted unit reads as. -/
def Memory.list (u : Nat) (v : Byte) (rest : Memory) : Memory :=
  if v = unlistedUnit then rest else (u, v) :: rest

/-- `S[u] <- v`, keeping the canonical form. -/
def Memory.setUnit : Memory → Nat → Byte → Memory
  | [], u, v => Memory.list u v []
  | (a, b) :: rest, u, v =>
    if u < a then Memory.list u v ((a, b) :: rest)
    else if u = a then Memory.list u v rest
    else (a, b) :: Memory.setUnit rest u v

/-- Every listed unit number is above `u`, and they rise strictly, and no listed value is the unlisted one. -/
def Memory.wfAbove : Nat → Memory → Bool
  | _, [] => true
  | u, (a, b) :: rest => decide (u < a) && decide (b ≠ unlistedUnit) && Memory.wfAbove a rest

/-- The canonical form: unit numbers strictly rising, no entry equal to what an unlisted unit reads as. -/
def Memory.wf : Memory → Bool
  | [] => true
  | (a, b) :: rest => decide (b ≠ unlistedUnit) && Memory.wfAbove a rest

/-- Every listed unit is one of the first `n`. -/
def Memory.within (n : Nat) (m : Memory) : Bool := m.all fun c => decide (c.1 < n)

/-- `MemRead(u, 1)`, defined only for `u < NBYTES` (rule R16); no side effect (rule R46). -/
def memRead (cfg : Config) (m : Memory) (u : Nat) : Option Byte :=
  if u < cfg.nbytes then some (m.unitAt u) else none

/-- `MemWrite(u, 1, v)`, defined only for `u < NBYTES`; no other unit changes (rule R16). -/
def memWrite (cfg : Config) (m : Memory) (u : Nat) (v : Byte) : Option Memory :=
  if u < cfg.nbytes then some (m.setUnit u v) else none

/-! ### 8-bit shifts and masks -/

/-- `shl8(x, n) = (x * 2^n) mod 256` (rule R15). -/
def shl8 (x : Byte) (n : Nat) : Byte := x <<< n

/-- `shr8(x, n) = x div 2^n`, zero-filling (rule R15). -/
def shr8 (x : Byte) (n : Nat) : Byte := x >>> n

/-- `2^n - 1` as an 8-bit mask, for `n <= 8`. -/
def lowMask (n : Nat) : Byte := BitVec.ofNat 8 (2 ^ n - 1)

/-! ### The ports -/

/-- The input pins of a host that drives nothing. -/
def quietPins : InPins := { rst := false, cmdValid := false, cmd := 0#32 }

/-- The input pins of a host that offers a command word. -/
def offerPins (w : CommandWord) : InPins := { rst := false, cmdValid := true, cmd := w }

/-- The input pins of a host that asserts reset. -/
def resetPins : InPins := { rst := true, cmdValid := false, cmd := 0#32 }

/-- The input pins in this step (log entry 2). -/
def State.pins (s : State) : InPins := s.inputs.headD quietPins

/-- The same state with the host offering this word in the very next step (rule R166). -/
def State.offer (s : State) (w : CommandWord) : State := { s with inputs := offerPins w :: s.inputs }

/-- The same state with the host asserting reset in the very next step (rule R170). -/
def State.assertReset (s : State) : State := { s with inputs := resetPins :: s.inputs }

/-- The output pins (rule R166). Between steps no command is in progress, so `cmd_ready` is low only when halted (rule R146). -/
def State.outputs (s : State) : OutPins :=
  { cmdReady := !s.fault, rsp := s.rsp, warn := s.warn, fault := s.fault, fcause := s.fcause, fcmd := s.fcmd }

/-- What happens at the ports: reset at any time (rule R170), before any command (log entry 3); nothing else while halted
(rule R146); otherwise the offered word is accepted, or the block waits (log entry 5). -/
def portEvent (s : State) : PortEvent :=
  if s.pins.rst then .reset
  else if s.fault then .stuck
  else if s.pins.cmdValid then .accept s.pins.cmd
  else .idle

/-- The host moves on to the next values of the input pins. -/
def advanceInputs (s : State) : State := { s with inputs := s.inputs.tail }

/-- After a command: the host moves on (rule R166, one command at a time). -/
def finishCommand : Host.Outcome State Fault Refusal → Host.Outcome State Fault Refusal
  | .next t => .next (advanceInputs t)
  | .fault f => .fault f
  | .refused r => .refused r

/-! ### Completing, warning, faulting, waiting, reset -/

/-- `respond(d)`: the command completes with `DATA = d` (rules R11, R16, R68). `wrn` is the bit `WRN` and the pulse `warn`. -/
def respond (wrn : Bool) (d : Byte) (s : State) : State :=
  { s with rsp := some (completedResponse wrn d), warn := wrn }

/-- `warn()`'s event: one pair (index, presented value) appended to `DIAG` (rules R16, R150, R151). -/
def recordTruncation (index : Nat) (value : Byte) (s : State) : State :=
  { s with diag := s.diag ++ [(index, value)] }

/-- Taking a fault (rule R144): `FAULT`, `FCAUSE` and `FCMD` are written, `FCMD` with the whole command word, as it is on
the port `cmd`; storage and `DIAG` are unchanged and there is no pulse. -/
def raiseFault (c : Cause) (s : State) : State :=
  { s with fault := true, fcause := causeCode c, fcmd := s.pins.cmd, rsp := some (faultResponse c), warn := false }

/-- Reset, the only way out of a fault (rules R147, R170, R171): zero-fill, clear the fault registers, outputs low.
The constants and `DIAG` are untouched. -/
def applyReset (s : State) : State :=
  { s with storage := [], fault := false, fcause := 0#2, fcmd := 0#32, rsp := none, warn := false }

/-- A step in which the ready block is offered nothing: no response and no pulse (log entry 5). -/
def waitForCommand (s : State) : State := { s with rsp := none, warn := false }

/-- A command completes with `DATA = d`, where reading gave one; a read outside the storage stops (log entry 9). -/
def completeRead (d : Option Byte) (s : State) : Host.Outcome State Fault Refusal :=
  match d with
  | some b => .next (respond false b s)
  | none => .fault .unitOutsideStorage

/-- A command that wrote storage and warns of nothing completes with `DATA = 0`; a write outside the storage stops
(log entry 9). -/
def completeWrite (m : Option Memory) (s : State) : Host.Outcome State Fault Refusal :=
  match m with
  | some m' => .next (respond false 0#8 { s with storage := m' })
  | none => .fault .unitOutsideStorage

/-- As `completeWrite`, with the truncation warning of rule R101. -/
def completeWriteWarning (index : Nat) (value : Byte) (m : Option Memory) (s : State) : Host.Outcome State Fault Refusal :=
  match m with
  | some m' => .next (respond true 0#8 (recordTruncation index value { s with storage := m' }))
  | none => .fault .unitOutsideStorage

end Sys2Proof.Machine
end

