-- ==== Sys2Proof/Machine/Operands.lean ====
section
/-! DEFINITION. The operand forms: the shared bit-address resolution, and reading, writing and clearing the element it finds. -/

namespace Sys2Proof.Machine

/-- What `Resolve` returns (rule R80): `u`, `o` and `spans`. -/
structure Resolved where
  /-- `u`, the start unit. -/
  unit : Nat
  /-- `o`, the bit offset in the start unit, counted from its most-significant bit (rule R14). -/
  offset : Nat
  /-- The element's bits run into unit `u + 1`. -/
  spans : Bool
deriving DecidableEq, Repr

/-- `abs`, the absolute bit offset of an element's first bit (rules R42, R80). -/
def bitOffset (cfg : Config) (index : Nat) : Nat := index * cfg.bits

/-- `Resolve(index)` (rules R80, R88), in unbounded natural numbers (rule R85). -/
def resolve (cfg : Config) (index : Nat) : Resolved :=
  let abs := bitOffset cfg index
  let u := abs / 8
  let o := abs - u * 8
  { unit := u, offset := o, spans := decide (o + cfg.bits > 8) }

/-- `h`, the width of the tail fragment in unit `u` (rule R83). -/
def tailWidth (r : Resolved) : Nat := 8 - r.offset

/-- `l`, the width of the head fragment in unit `u + 1` (rule R83). -/
def headWidth (cfg : Config) (r : Resolved) : Nat := r.offset + cfg.bits - 8

/-- The part of an element that its start unit `a` gives: the pseudocode of rule R90 up to the mask. -/
def startFragment (cfg : Config) (o : Nat) (a : Byte) : Byte :=
  shr8 (shl8 a o) (8 - cfg.bits) &&& lowMask cfg.bits

/-- The part of a spanning element that the next unit `b` gives (rule R90). -/
def nextFragment (cfg : Config) (o : Nat) (b : Byte) : Byte := shr8 b (16 - (o + cfg.bits))

/-- Reading an element (rule R90). Unit `u + 1` is read only when the element spans (rule R81). -/
def readElement (cfg : Config) (m : Memory) (index : Nat) : Option Byte :=
  let r := resolve cfg index
  match memRead cfg m r.unit with
  | none => none
  | some a =>
    if r.spans then
      match memRead cfg m (r.unit + 1) with
      | none => none
      | some b => some (startFragment cfg r.offset a ||| nextFragment cfg r.offset b)
    else some (startFragment cfg r.offset a)

/-- Step 2 of rule R100, non-spanning: clear the element's bits in its unit. -/
def clearWhole (cfg : Config) (o : Nat) (a : Byte) : Byte :=
  a &&& ~~~ (shl8 (lowMask cfg.bits) (8 - o - cfg.bits))

/-- Step 2 of rule R100, spanning: clear the tail fragment `S[u][h-1:0]`. -/
def clearTail (h : Nat) (a : Byte) : Byte := a &&& ~~~ (lowMask h)

/-- Step 2 of rule R100, spanning: clear the head fragment `S[u+1][7:8-l]`. -/
def clearHead (l : Nat) (b : Byte) : Byte := b &&& shr8 0xFF#8 l

/-- Reading two units, changing both and writing them back, inside one command (rule R47). -/
def updateTwo (cfg : Config) (m : Memory) (u : Nat) (a' b' : Byte → Byte) : Option Memory :=
  match memRead cfg m u, memRead cfg m (u + 1) with
  | some a, some b =>
    match memWrite cfg m u (a' a) with
    | some m' => memWrite cfg m' (u + 1) (b' b)
    | none => none
  | _, _ => none

/-- Reading one unit, changing it and writing it back. -/
def updateOne (cfg : Config) (m : Memory) (u : Nat) (a' : Byte → Byte) : Option Memory :=
  match memRead cfg m u with
  | some a => memWrite cfg m u (a' a)
  | none => none

/-- Clearing then writing the element's bits with `v`, already below `2^BITS` (rule R100, both branches). -/
def writeElement (cfg : Config) (m : Memory) (index : Nat) (v : Byte) : Option Memory :=
  let r := resolve cfg index
  let h := tailWidth r
  let l := headWidth cfg r
  if r.spans then
    updateTwo cfg m r.unit (fun a => clearTail h a ||| shr8 v l) (fun b => clearHead l b ||| shl8 v (8 - l))
  else
    updateOne cfg m r.unit (fun a => clearWhole cfg r.offset a ||| shl8 v (8 - r.offset - cfg.bits))

/-- The clearing step alone (rule R106, both branches). -/
def clearElement (cfg : Config) (m : Memory) (index : Nat) : Option Memory :=
  let r := resolve cfg index
  if r.spans then updateTwo cfg m r.unit (clearTail (tailWidth r)) (clearHead (headWidth cfg r))
  else updateOne cfg m r.unit (clearWhole cfg r.offset)

/-- The bounds check of the element view: `index >= LEN` (rules R48, R84). -/
def indexOutOfRange (cfg : Config) (index : Nat) : Bool := decide (cfg.len ≤ index)

/-- The bounds check of the byte view: `addr >= NBYTES` (rules R48, R122). -/
def addrOutOfRange (cfg : Config) (addr : Nat) : Bool := decide (cfg.nbytes ≤ addr)

end Sys2Proof.Machine
end

