-- ==== Sys2Proof/Machine/Elements.lean ====
section
/-! DEFINITION. The meanings of the element-view commands GET, SET and CLR (41_get.md, 42_set_clear.md). -/

namespace Sys2Proof.Machine

/-- GET (rule R90): the bounds check first (rule R84), then the element's value in `DATA`. Nothing is written (rule R92). -/
def execGet (index : Nat) (s : State) : Host.Outcome State Fault Refusal :=
  if indexOutOfRange s.cfg index then .next (raiseFault .indexRange s)
  else completeRead (readElement s.cfg s.storage index) s

/-- SET (rules R100, R101): the bounds check first, and a fault raises no warning (rule R102); then the element becomes
`value mod 2^BITS`, with one warning when `value >= 2^BITS`. -/
def execSet (index : Nat) (value : Byte) (s : State) : Host.Outcome State Fault Refusal :=
  if indexOutOfRange s.cfg index then .next (raiseFault .indexRange s)
  else if truncates s.cfg value then
    completeWriteWarning index value (writeElement s.cfg s.storage index (truncated s.cfg value)) s
  else completeWrite (writeElement s.cfg s.storage index (truncated s.cfg value)) s

/-- CLR (rule R106): the bounds check, then the clearing step of SET and nothing else. -/
def execClr (index : Nat) (s : State) : Host.Outcome State Fault Refusal :=
  if indexOutOfRange s.cfg index then .next (raiseFault .indexRange s)
  else completeWrite (clearElement s.cfg s.storage index) s

end Sys2Proof.Machine
end

