-- ==== Sys2Proof/Machine/RawBytes.lean ====
section
/-! DEFINITION. The meanings of the byte-view commands RDB and WRB (43_raw_bytes.md). -/

namespace Sys2Proof.Machine

/-- RDB (rules R120, R122): the unit's byte, verbatim, in `DATA`. -/
def execRdb (addr : Nat) (s : State) : Host.Outcome State Fault Refusal :=
  if addrOutOfRange s.cfg addr then .next (raiseFault .byteRange s)
  else completeRead (memRead s.cfg s.storage addr) s

/-- WRB (rules R121, R122): the unit becomes `byte`, verbatim, pad bits included; never a warning. -/
def execWrb (addr : Nat) (byte : Byte) (s : State) : Host.Outcome State Fault Refusal :=
  if addrOutOfRange s.cfg addr then .next (raiseFault .byteRange s)
  else completeWrite (memWrite s.cfg s.storage addr byte) s

end Sys2Proof.Machine
end

