-- ==== Sys2Proof/Machine/Dispatch.lean ====
section
/-! DEFINITION. What each command does once it is accepted: one arm per constructor of Instr. -/

namespace Sys2Proof.Machine

def exec (i : Instr) (s : State) : Host.Outcome State Fault Refusal :=
  match i with
  | .get index => Sys2Proof.Machine.execGet index s
  | .set index value => Sys2Proof.Machine.execSet index value s
  | .clr index => Sys2Proof.Machine.execClr index s
  | .rdb addr => Sys2Proof.Machine.execRdb addr s
  | .wrb addr byte => Sys2Proof.Machine.execWrb addr byte s

end Sys2Proof.Machine
end

