-- ==== Sys2Proof/Machine/Step.lean ====
section
/-! DEFINITION. One step of the machine: reset, one command, or waiting; and how a word is put where the next step takes it. -/

namespace Sys2Proof.Machine

/-- What an accepted command word does: the command it decodes to, or the fault ILLEGAL_CMD (rules R66, R69, R143). -/
def runWord (w : CommandWord) (s : State) : Host.Outcome State Fault Refusal :=
  match Sys2Proof.decode w with
  | .command i => exec i s
  | .illegal _ => .next (raiseFault .illegalCmd s)

/-- One step (rules R10, R11, R146, R170): reset, a stop while halted, one whole command, or waiting. -/
def step (s : State) : Host.Outcome State Fault Refusal :=
  match portEvent s with
  | .reset => .next (advanceInputs (applyReset s))
  | .stuck => .fault .halted
  | .idle => .next (advanceInputs (waitForCommand s))
  | .accept w => finishCommand (runWord w s)

/-- The state in which the host offers this word in the very next step (rule R166). The block fetches nothing and keeps
no program (rule R23): commands come from the host's port, so the port is where the next command is taken from (log
entry 2). The fault latch is left as it is: a halted block accepts no word (rule R146). -/
def State.withFetchWord (s : State) (nbits w : Nat) : State :=
  s.offer (BitVec.ofNat 32 (w % 2 ^ nbits))

end Sys2Proof.Machine
end

