-- ==== Sys2Proof/Machine/Assembler.lean ====
section
/-! DEFINITION. The command listing of rule R70: one line a command, and what a line assembles to. Lines are lists of characters. -/

namespace Sys2Proof.Machine

/-- What a line of a listing stands for (rule R70). -/
inductive Line where
  | command (i : Instr)
  /-- `RESET` is not a command: the host asserts the reset input. -/
  | reset
deriving DecidableEq, Repr

/-- The value of a digit, `0` to `9`, `a` to `f`, `A` to `F`. -/
def digitValue (c : Char) : Option Nat :=
  let n := c.toNat
  if 48 ≤ n ∧ n ≤ 57 then some (n - 48)
  else if 97 ≤ n ∧ n ≤ 102 then some (n - 87)
  else if 65 ≤ n ∧ n ≤ 70 then some (n - 55)
  else none

/-- The number written by digits in a base, on top of what stands before them. -/
def readDigits (base : Nat) : Nat → List Char → Option Nat
  | acc, [] => some acc
  | acc, c :: cs =>
    match digitValue c with
    | some d => if d < base then readDigits base (acc * base + d) cs else none
    | none => none

/-- At least one digit in a base. -/
def readBase (base : Nat) : List Char → Option Nat
  | [] => none
  | c :: cs => readDigits base 0 (c :: cs)

/-- A number in decimal, `0x` hexadecimal or `0b` binary (rule R70). -/
def readNumber : List Char → Option Nat
  | '0' :: 'x' :: ds => readBase 16 ds
  | '0' :: 'b' :: ds => readBase 2 ds
  | ds => readBase 10 ds

/-- The text before the first comma and, where there is a comma, the text after it. -/
def splitComma : List Char → List Char × Option (List Char)
  | [] => ([], none)
  | c :: cs =>
    if c = ',' then ([], some cs)
    else
      let rest := splitComma cs
      (c :: rest.1, rest.2)

/-- The operands of a line: one number or two, separated by a comma. Spaces are dropped (log entry 14). -/
def readOperands (cs : List Char) : Option (Nat × Option Nat) :=
  match splitComma (cs.filter (fun c => decide (c ≠ ' '))) with
  | (a, none) =>
    match readNumber a with
    | some n => some (n, none)
    | none => none
  | (a, some b) =>
    match readNumber a, readNumber b with
    | some n, some v => some (n, some v)
    | _, _ => none

/-- A command of an index alone, where the index fits 16 bits (rule R70). -/
def assembleIndex (mk : Nat → Instr) : Option (Nat × Option Nat) → Option Line
  | some (n, none) => if fitsIndex n then some (.command (mk n)) else none
  | _ => none

/-- A command of an index and a value, where they fit 16 and 8 bits (rule R70). -/
def assembleValue (mk : Nat → Byte → Instr) : Option (Nat × Option Nat) → Option Line
  | some (n, some v) => if fitsIndex n && decide (v < 256) then some (.command (mk n (BitVec.ofNat 8 v))) else none
  | _ => none

/-- What a line assembles to; none where it does not assemble (rule R70). -/
def assemble : List Char → Option Line
  | ['R', 'E', 'S', 'E', 'T'] => some .reset
  | 'G' :: 'E' :: 'T' :: ' ' :: rest => assembleIndex .get (readOperands rest)
  | 'S' :: 'E' :: 'T' :: ' ' :: rest => assembleValue .set (readOperands rest)
  | 'C' :: 'L' :: 'R' :: ' ' :: rest => assembleIndex .clr (readOperands rest)
  | 'R' :: 'D' :: 'B' :: ' ' :: rest => assembleIndex .rdb (readOperands rest)
  | 'W' :: 'R' :: 'B' :: ' ' :: rest => assembleValue .wrb (readOperands rest)
  | _ => none

/-- What the host drives for a line: the command's word, or the reset input (rule R70). -/
def Line.drive : Line → InPins
  | .command i => offerPins (encode i)
  | .reset => resetPins

/-- A hexadecimal digit. -/
def hexDigit (n : Nat) : Char := if n < 10 then Char.ofNat (48 + n) else Char.ofNat (55 + n)

/-- An index written as `0x` and four hexadecimal digits. -/
def listIndex (n : Nat) : List Char :=
  ['0', 'x', hexDigit (n / 4096 % 16), hexDigit (n / 256 % 16), hexDigit (n / 16 % 16), hexDigit (n % 16)]

/-- A value written as `0x` and two hexadecimal digits. -/
def listByte (b : Byte) : List Char := ['0', 'x', hexDigit (b.toNat / 16), hexDigit (b.toNat % 16)]

/-- A command's line in the listing (rule R70). -/
def listing : Instr → List Char
  | .get index => ['G', 'E', 'T', ' '] ++ listIndex index
  | .set index value => ['S', 'E', 'T', ' '] ++ listIndex index ++ [',', ' '] ++ listByte value
  | .clr index => ['C', 'L', 'R', ' '] ++ listIndex index
  | .rdb addr => ['R', 'D', 'B', ' '] ++ listIndex addr
  | .wrb addr byte => ['W', 'R', 'B', ' '] ++ listIndex addr ++ [',', ' '] ++ listByte byte

end Sys2Proof.Machine
end

