-- ==== Sys2Proof/Machine/Layout.lean ====
section
/-! DEFINITION. The storage seen as one big-endian bit string: the bits of an element, the pad bits, the window forms, the two views. -/

namespace Sys2Proof.Machine

/-- The storage bit at absolute offset `abs`: `S[abs div 8][7 - (abs mod 8)]` (rules R14, R41). -/
def storageBit (m : Memory) (abs : Nat) : Bool := (m.unitAt (abs / 8)).getLsbD (7 - abs % 8)

/-- The number a list of bits writes, most-significant bit first. -/
def bitsToNat (bs : List Bool) : Nat := bs.foldl (fun acc b => 2 * acc + b.toNat) 0

/-- Element `i` by the layout (rule R42): the number whose bit `BITS - 1 - k` is the storage bit at `i*BITS + k`. -/
def elementValue (cfg : Config) (m : Memory) (i : Nat) : Nat :=
  bitsToNat ((List.range cfg.bits).map fun k => storageBit m (bitOffset cfg i + k))

/-- The 16-bit window of rules R91 and R105: `S[u]*256 + S[u+1]`, with 0 for a unit that does not exist. -/
def window (cfg : Config) (m : Memory) (u : Nat) : Nat :=
  (m.unitAt u).toNat * 256 + (if u + 1 < cfg.nbytes then (m.unitAt (u + 1)).toNat else 0)

/-- `sh = 16 - o - BITS` (rule R105). -/
def windowShift (cfg : Config) (i : Nat) : Nat := 16 - (resolve cfg i).offset - cfg.bits

/-- The window form of GET (rule R91). -/
def windowValue (cfg : Config) (m : Memory) (i : Nat) : Nat :=
  window cfg m (resolve cfg i).unit / 2 ^ windowShift cfg i % 2 ^ cfg.bits

/-- The window form of SET (rule R105): `(W & ~((2^BITS - 1) * 2^sh)) | (v * 2^sh)`, in 16 bits. -/
def windowReplace (cfg : Config) (m : Memory) (i : Nat) (v : Nat) : BitVec 16 :=
  (BitVec.ofNat 16 (window cfg m (resolve cfg i).unit) &&&
    ~~~ (BitVec.ofNat 16 ((2 ^ cfg.bits - 1) * 2 ^ windowShift cfg i))) |||
  BitVec.ofNat 16 (v * 2 ^ windowShift cfg i)

/-- An absolute offset belongs to element `i` (rule R42). -/
def inElement (cfg : Config) (i abs : Nat) : Bool :=
  decide (bitOffset cfg i ≤ abs) && decide (abs < bitOffset cfg i + cfg.bits)

/-- The units a SET or CLR of element `i` writes: `u`, and `u + 1` when it spans (rule R46). -/
def writesUnit (cfg : Config) (i a : Nat) : Bool :=
  decide (a = (resolve cfg i).unit) || ((resolve cfg i).spans && decide (a = (resolve cfg i).unit + 1))

/-- `Canon(S)`: every pad bit is 0 (rules R31, R45). -/
def canonical (cfg : Config) (m : Memory) : Bool :=
  decide (cfg.nbytes = 0) || decide ((m.unitAt (cfg.nbytes - 1)).toNat % 2 ^ cfg.padBits = 0)

/-- The byte view as one sequence, `S[0], ..., S[NBYTES-1]` (rule R40). -/
def bytesOf (cfg : Config) (m : Memory) : List Byte := (List.range cfg.nbytes).map m.unitAt

/-- The element view as one sequence, element 0 to element `LEN - 1`, each right-aligned in 8 bits (rules R40, R131). -/
def elementsOf (cfg : Config) (m : Memory) : List Byte :=
  (List.range cfg.len).map fun i => BitVec.ofNat 8 (elementValue cfg m i)

/-- The storage with these bytes in units 0, 1, 2 and on (rule R137). -/
def Memory.ofBytes : Nat → List Byte → Memory
  | _, [] => []
  | a, b :: bs => Memory.list a b (Memory.ofBytes (a + 1) bs)

end Sys2Proof.Machine
end

