-- ==== Sys2Proof/Machine/Wrappers.lean ====
section
/-! DEFINITION. The host's pseudo-operations (44_wrappers.md), each as a function of the storage and as a run of commands. -/

namespace Sys2Proof.Machine

/-! ### Issuing commands -/

/-- The host offers one word and reads the response; none where the block gives no response (it is halted, rule R146). -/
def issue (w : CommandWord) (s : State) : Option (State × ResponseWord) :=
  match step (s.offer w) with
  | .next t =>
    match t.rsp with
    | some r => some (t, r)
    | none => none
  | .fault _ => none
  | .refused _ => none

/-- The host issues words in order, each after the response of the one before it (rules R50, R166). -/
def issueAll : List CommandWord → State → Option (State × List ResponseWord)
  | [], s => some (s, [])
  | w :: ws, s =>
    match issue w s with
    | none => none
    | some (t, r) =>
      match issueAll ws t with
      | none => none
      | some (t', rs) => some (t', r :: rs)

/-- A run of commands whose result is computed from the `DATA` bytes. -/
def issueFor {α : Type} (ws : List CommandWord) (f : List Byte → α) (s : State) : Option (State × α) :=
  match issueAll ws s with
  | none => none
  | some (t, rs) => some (t, f (rs.map rspData))

/-- `GET 0, ..., GET LEN-1` (rules R71, R131). -/
def getCommands (cfg : Config) : List CommandWord := (List.range cfg.len).map fun i => encode (.get i)

/-- `RDB 0, ..., RDB NBYTES-1` (rules R71, R134). -/
def rdbCommands (cfg : Config) : List CommandWord := (List.range cfg.nbytes).map fun a => encode (.rdb a)

/-- `WRB a, b[0]`, `WRB a+1, b[1]` and on (rules R71, R137). -/
def wrbCommands : Nat → List Byte → List CommandWord
  | _, [] => []
  | a, b :: bs => encode (.wrb a b) :: wrbCommands (a + 1) bs

/-! ### UNPACK and ITER -/

/-- UNPACK (rule R131) as a run of GET commands. -/
def unpackRun (s : State) : Option (State × List Byte) := issueFor (getCommands s.cfg) (fun ds => ds) s

/-- Where the host's counter starts (rule R133). -/
def iterStart : Nat := 0

/-- What one request to the iterator gives (rule R133). -/
inductive IterResult where
  /-- All `LEN` values have been produced: no command is issued. -/
  | done
  /-- The next value, the host's counter after it, and the block after the command. -/
  | value (data : Byte) (counter : Nat) (after : State)
  /-- The block gave no response. -/
  | blocked
deriving DecidableEq, Repr

/-- One request to ITER (rule R133): the counter is the host's. -/
def iterNext (counter : Nat) (s : State) : IterResult :=
  if s.cfg.len ≤ counter then .done
  else
    match issue (encode (.get counter)) s with
    | some (t, r) => .value (rspData r) (counter + 1) t
    | none => .blocked

/-- Requests to ITER, at most `k` of them, until it is over: the block after them and the values in order. None where the
block gives no response, or where the iteration is not over after `k` requests. -/
def iterFrom : Nat → Nat → State → Option (State × List Byte)
  | 0, _, _ => none
  | k + 1, counter, s =>
    match iterNext counter s with
    | .done => some (s, [])
    | .blocked => none
    | .value d counter' t =>
      match iterFrom k counter' t with
      | some (t', ds) => some (t', d :: ds)
      | none => none

/-- ITER (rule R133) from its start to its end: `LEN` requests that give a value, and one that finds it over. -/
def iterRun (s : State) : Option (State × List Byte) := iterFrom (s.cfg.len + 1) iterStart s

/-! ### The equalities -/

/-- EQP (rule R134) of a storage; only a sequence of `NBYTES` bytes is an input (93_implementation_defined.md I14). -/
def eqp? (cfg : Config) (m : Memory) (b : List Byte) : Option Bool :=
  if b.length = cfg.nbytes then some (decide (bytesOf cfg m = b)) else none

/-- EQA (rule R135) of a storage; the input is a sequence of `LEN` values. -/
def eqa? (cfg : Config) (m : Memory) (x : List Byte) : Option Bool :=
  if x.length = cfg.len then some (decide (elementsOf cfg m = x)) else none

/-- EQP as a run of RDB commands; every byte is read (log entry 13). -/
def eqpRun (b : List Byte) (s : State) : Option (State × Bool) :=
  if b.length = s.cfg.nbytes then issueFor (rdbCommands s.cfg) (fun ds => decide (ds = b)) s else none

/-- EQA as a run of GET commands; every element is read (log entry 13). -/
def eqaRun (x : List Byte) (s : State) : Option (State × Bool) :=
  if x.length = s.cfg.len then issueFor (getCommands s.cfg) (fun ds => decide (ds = x)) s else none

/-! ### HASH, SER, DESER, NEW -/

/-- HASH (rule R136) of a storage. `HASHFN` is an argument (rule R9, log entry 12). -/
def hashOf {α : Type} (hashFn : List Byte → α) (cfg : Config) (m : Memory) : α := hashFn (bytesOf cfg m)

/-- HASH as a run of RDB commands. -/
def hashRun {α : Type} (hashFn : List Byte → α) (s : State) : Option (State × α) :=
  issueFor (rdbCommands s.cfg) hashFn s

/-- SER (rule R137) as a run of RDB commands: the bytes in address order, no framing. -/
def serRun (s : State) : Option (State × List Byte) := issueFor (rdbCommands s.cfg) (fun ds => ds) s

/-- DESER (rule R137) as a run of WRB commands; the input is a sequence of `NBYTES` bytes. It cannot run on a halted block,
whatever `NBYTES` is, and it clears no fault. -/
def deserRun (b : List Byte) (s : State) : Option State :=
  if s.fault then none
  else if b.length = s.cfg.nbytes then
    match issueAll (wrbCommands 0 b) s with
    | some (t, _) => some t
    | none => none
  else none

/-- NEW (rule R138): the host asserts reset. -/
def newRun (s : State) : Option State :=
  match step s.assertReset with
  | .next t => some t
  | .fault _ => none
  | .refused _ => none

end Sys2Proof.Machine
end

