-- ==== Sys2Proof/Safety.lean ====
section
/-! DEFINITION. The terms claims use: which words fault, the legal response words, the reachable-state invariant. -/

namespace Sys2Proof.Machine

/-- The range fault of a decoded command (rules R48, R141, R142). -/
def rangeFault (cfg : Config) : Instr → Option Cause
  | .get index => if cfg.len ≤ index then some .indexRange else none
  | .set index _ => if cfg.len ≤ index then some .indexRange else none
  | .clr index => if cfg.len ≤ index then some .indexRange else none
  | .rdb addr => if cfg.nbytes ≤ addr then some .byteRange else none
  | .wrb addr _ => if cfg.nbytes ≤ addr then some .byteRange else none

/-- The cause a command word faults with, if any, in the order of rule R143. It reads the word and the constants only
(rule R141). -/
def faultCause (cfg : Config) (w : CommandWord) : Option Cause :=
  match Sys2Proof.decode w with
  | .illegal _ => some .illegalCmd
  | .command i => rangeFault cfg i

/-- The command is in range: it completes (rule R142). -/
def InRange (cfg : Config) (i : Instr) : Prop := rangeFault cfg i = none

/-- The block is ready and accepts this word in this step (rules R146, R166). -/
def Accepts (s : State) (w : CommandWord) : Prop :=
  s.pins.rst = false ∧ s.fault = false ∧ s.pins.cmdValid = true ∧ s.pins.cmd = w

/-- The response words rule R68 allows: `0x00dd`, `0x4000`, `0x8100`, `0x8200`, `0x8300`. -/
def legalResponse (r : ResponseWord) : Bool :=
  decide (rspZero r = 0#4) &&
  (if rspFlt r then !rspWrn r && decide (rspCause r ≠ 0#2) && decide (rspData r = 0#8)
   else decide (rspCause r = 0#2) && (!rspWrn r || decide (rspData r = 0#8)))

/-- The invariant of the machine. The first four fields are rules R20 and R32; the others say the same of the outputs
(rules R28, R68, R150, R151). -/
structure State.Inv (s : State) : Prop where
  /-- The storage is in its canonical form. -/
  storageWf : s.storage.wf = true
  /-- Only the `NBYTES` units are listed (rules R20, R21). -/
  storageInside : s.storage.within s.cfg.nbytes = true
  /-- `FAULT = 0` implies `FCAUSE = 0` and `FCMD = 0` (rule R32). -/
  readyClear : s.fault = false → s.fcause = 0#2 ∧ s.fcmd = 0#32
  /-- `FAULT = 1` implies that `FCMD` is a word that faults with the cause `FCAUSE` (rule R32). -/
  haltedCause : s.fault = true → (faultCause s.cfg s.fcmd).map causeCode = some s.fcause
  /-- The response is legal, and its `FLT` is `FAULT` (rules R11, R68). -/
  responseLegal : ∀ r ∈ s.rsp, legalResponse r = true ∧ rspFlt r = s.fault
  /-- The pulse `warn` is the bit `WRN` of the response (rule R150). -/
  warnIsWrn : s.warn = (s.rsp.map rspWrn).getD false
  /-- Every event of `DIAG` is a truncation of an element of this instance (rules R150, R151). -/
  diagTruncates : ∀ e ∈ s.diag, e.1 < s.cfg.len ∧ truncates s.cfg e.2 = true

/-- A run of `n` steps that meets no stop and ends in a state that is not halted. -/
def SafeRun (n : Nat) (s : State) : Prop :=
  ∃ t, Host.Core.run { State := State, Fault := Fault, Refusal := Refusal, step := step, reset := State.reset } n s = .next t
    ∧ t.fault = false

end Sys2Proof.Machine
end

