-- ==== Sys2Proof/Certificates/Slice0/Obligations.lean ====
section
/-! DEFINITION. The statements for the provers, made from the numbered rules of spec/.

The premise `s.storage.wf = true` says that the storage list is in its canonical form; it rules out states that no run
reaches, and `Obligations.EveryStepKeepsTheInvariant` with `Obligations.ResetMeetsTheInvariant` states that runs keep it. -/

open Sys2Proof Sys2Proof.Machine

/-! ### Encoding -/

/-- Rule R69: `decode(encode(c)) = c` for every command `c`. -/
def Obligations.DecodeOfEncodeIsTheCommand : Prop :=
  ∀ i : Instr, WellFormed i → decode (encode i) = .command i

/-- Rule R69: `encode(decode(w)) = w` for every legal word of SET and WRB, and for GET, CLR and RDB when `w[7:0] = 0`;
for any other legal word the result is the word with `w[7:0]` cleared. -/
def Obligations.EncodeOfDecodeIsTheWord : Prop :=
  ∀ (w : CommandWord) (i : Instr), decode w = .command i →
    WellFormed i ∧ opField w = i.opcode ∧
    match i with
    | .set _ _ => encode i = w
    | .wrb _ _ => encode i = w
    | .get _ => encode i = packCommand (opField w) (idxField w) 0#8 ∧ (valField w = 0#8 → encode i = w)
    | .clr _ => encode i = packCommand (opField w) (idxField w) 0#8 ∧ (valField w = 0#8 → encode i = w)
    | .rdb _ => encode i = packCommand (opField w) (idxField w) 0#8 ∧ (valField w = 0#8 → encode i = w)

/-- Rule R62: the opcodes, with the match and mask values, and the operands each command uses; every other word is
illegal, the all-zero word among them. -/
def Obligations.OpcodesByMatchAndMask : Prop :=
  (∀ w : CommandWord,
    (w &&& 0xFF000000#32 = 0x10000000#32 ↔ decode w = .command (.get (idxField w).toNat)) ∧
    (w &&& 0xFF000000#32 = 0x20000000#32 ↔ decode w = .command (.set (idxField w).toNat (valField w))) ∧
    (w &&& 0xFF000000#32 = 0x30000000#32 ↔ decode w = .command (.clr (idxField w).toNat)) ∧
    (w &&& 0xFF000000#32 = 0x40000000#32 ↔ decode w = .command (.rdb (idxField w).toNat)) ∧
    (w &&& 0xFF000000#32 = 0x50000000#32 ↔ decode w = .command (.wrb (idxField w).toNat (valField w))) ∧
    ((∃ why, decode w = .illegal why) ↔
      w &&& 0xFF000000#32 ∉ [0x10000000#32, 0x20000000#32, 0x30000000#32, 0x40000000#32, 0x50000000#32])) ∧
  decode 0#32 = .illegal (.unassignedOpcode 0#4)

/-- Rule R66: which words are illegal, and that an accepted illegal word faults with ILLEGAL_CMD, storage unchanged,
fault latched, block halted. -/
def Obligations.IllegalWordsFault : Prop :=
  (∀ w : CommandWord, (∃ why, decode w = .illegal why) ↔
    (opField w = 0#4 ∨ 6 ≤ (opField w).toNat ∨ rsvField w ≠ 0#4)) ∧
  ∀ (s : State) (w : CommandWord), Accepts s w →
    (opField w = 0#4 ∨ 6 ≤ (opField w).toNat ∨ rsvField w ≠ 0#4) →
    step s = .next { s with fault := true, fcause := 2#2, fcmd := w, rsp := some 0x8200#16, warn := false,
                            inputs := s.inputs.tail }

/-- 95_test_vectors.md V4, V5 and P3: words written out from the encoding, and what they stand for. -/
def Obligations.WorkedWordsDecode : Prop :=
  decode 0x10FFFF00#32 = .command (.get 65535) ∧ decode 0x200002FD#32 = .command (.set 2 0xFD#8) ∧
  decode 0x300002FF#32 = .command (.clr 2) ∧ decode 0x400001AA#32 = .command (.rdb 1) ∧
  decode 0x500003FF#32 = .command (.wrb 3 0xFF#8) ∧ decode 0x21000205#32 = .illegal (.reservedField 1#4) ∧
  decode 0x60FFFF00#32 = .illegal (.unassignedOpcode 6#4)

/-- Rule R65: for GET, CLR and RDB all values of `VAL` decode to the same command, with the same effect and the same
response (a faulting command records its own word in `FCMD`, rule R144); the assembler emits 0; `VAL` is ignored nowhere
else, and no other field is ignored. -/
def Obligations.ValueFieldIgnored : Prop :=
  (∀ w w' : CommandWord, opField w ∈ [0x1#4, 0x3#4, 0x4#4] → opField w' = opField w → rsvField w' = rsvField w →
    idxField w' = idxField w → decode w' = decode w ∧
    ∀ s : State, s.fault = false → ∃ t, step (s.offer w) = .next t ∧
      step (s.offer w') = .next { t with fcmd := if t.fault then w' else t.fcmd }) ∧
  (∀ n : Nat, valField (encode (.get n)) = 0#8 ∧ valField (encode (.clr n)) = 0#8 ∧ valField (encode (.rdb n)) = 0#8) ∧
  (∀ (w w' : CommandWord) (i : Instr), decode w = .command i → decode w' = .command i → w ≠ w' →
    opField w ∈ [0x1#4, 0x3#4, 0x4#4] ∧ opField w' = opField w ∧ rsvField w' = rsvField w ∧ idxField w' = idxField w)

/-- Rule R70: a command's line in the listing assembles to that command, and `RESET` stands for the reset input.
The line's spelling is the model's choice among those the rule allows (log entry 14). -/
def Obligations.ListingAssembles : Prop :=
  (∀ i : Instr, WellFormed i → assemble (listing i) = some (.command i)) ∧
  (∀ i : Instr, ¬ WellFormed i → ∀ cs, assemble cs ≠ some (.command i)) ∧
  (assemble ['R', 'E', 'S', 'E', 'T']).map Line.drive = some resetPins

/-! ### The instance and the address resolution -/

/-- Rules R5, R6, R7: the legal parameters, and the size they give. -/
def Obligations.InstancesAreTheLegalOnes : Prop :=
  (∀ b l : Nat, (Config.build? b l).isSome = true ↔ 1 ≤ b ∧ b ≤ 8 ∧ l ≤ 65536) ∧
  (∀ (b l : Nat) (cfg : Config), Config.build? b l = some cfg → cfg.bits = b ∧ cfg.len = l) ∧
  (∀ cfg : Config, cfg.bits * cfg.len ≤ 8 * cfg.nbytes ∧ 8 * cfg.nbytes < cfg.bits * cfg.len + 8 ∧ cfg.nbytes ≤ 65536)

/-- Rule R81: an in-range element lies inside the storage; the second unit exists when the element spans, and is touched
only then. -/
def Obligations.ResolvedElementInsideStorage : Prop :=
  ∀ (cfg : Config) (index : Nat), index < cfg.len →
    (resolve cfg index).offset ≤ 7 ∧
    bitOffset cfg index + cfg.bits ≤ cfg.bits * cfg.len ∧ cfg.bits * cfg.len ≤ 8 * cfg.nbytes ∧
    bitOffset cfg index + cfg.bits - 1 < 8 * cfg.nbytes ∧
    (resolve cfg index).unit ≤ cfg.nbytes - 1 ∧ 1 ≤ cfg.nbytes ∧
    ((resolve cfg index).spans = true → (resolve cfg index).unit + 1 ≤ cfg.nbytes - 1) ∧
    (∀ (m : Memory) (v : Byte), (readElement cfg m index).isSome = true ∧ (writeElement cfg m index v).isSome = true ∧
      (clearElement cfg m index).isSome = true) ∧
    (∀ m m' : Memory, (resolve cfg index).spans = false →
      m.unitAt (resolve cfg index).unit = m'.unitAt (resolve cfg index).unit →
      readElement cfg m index = readElement cfg m' index) ∧
    (∀ (m m' : Memory) (v : Byte), m.wf = true → (resolve cfg index).spans = false →
      (writeElement cfg m index v = some m' ∨ clearElement cfg m index = some m') →
      m'.unitAt ((resolve cfg index).unit + 1) = m.unitAt ((resolve cfg index).unit + 1))

/-- Rule R82: which bit offsets occur for each width, which elements span, and the period of the pattern. -/
def Obligations.OffsetsByWidth : Prop :=
  ∀ (cfg : Config) (index : Nat),
    (resolve cfg index).offset = index * cfg.bits % 8 ∧
    (cfg.bits = 8 → (resolve cfg index).offset = 0 ∧ (resolve cfg index).unit = index ∧ (resolve cfg index).spans = false) ∧
    (cfg.bits = 4 → (resolve cfg index).offset ∈ [0, 4] ∧ (resolve cfg index).spans = false) ∧
    (cfg.bits = 2 → (resolve cfg index).offset ∈ [0, 2, 4, 6] ∧ (resolve cfg index).spans = false) ∧
    (cfg.bits = 1 → (resolve cfg index).offset = index % 8 ∧ (resolve cfg index).unit = index / 8 ∧
      (resolve cfg index).spans = false) ∧
    (cfg.bits ∈ [3, 5, 7] → (∀ o, o ≤ 7 → ∃ i, i ≤ 7 ∧ (resolve cfg i).offset = o) ∧
      ((resolve cfg index).spans = true ↔ (resolve cfg index).offset > 8 - cfg.bits)) ∧
    (cfg.bits = 6 → some (resolve cfg index).offset = [0, 6, 4, 2][index % 4]? ∧
      ((resolve cfg index).spans = true ↔ (resolve cfg index).offset ∈ [4, 6])) ∧
    (resolve cfg (index + 8 / Nat.gcd cfg.bits 8)).offset = (resolve cfg index).offset ∧
    (resolve cfg (index + 8 / Nat.gcd cfg.bits 8)).spans = (resolve cfg index).spans

/-- Rule R83: an element that does not span is a run of bits of its unit; one that spans is a tail fragment of `h` bits
and a head fragment of `l` bits. -/
def Obligations.FragmentsOfAnElement : Prop :=
  ∀ (cfg : Config) (m : Memory) (index : Nat),
    ((resolve cfg index).spans = false →
      elementValue cfg m index =
        (m.unitAt (resolve cfg index).unit).toNat / 2 ^ (8 - (resolve cfg index).offset - cfg.bits) % 2 ^ cfg.bits) ∧
    ((resolve cfg index).spans = true →
      tailWidth (resolve cfg index) = 8 - (resolve cfg index).offset ∧
      headWidth cfg (resolve cfg index) = (resolve cfg index).offset + cfg.bits - 8 ∧
      tailWidth (resolve cfg index) + headWidth cfg (resolve cfg index) = cfg.bits ∧
      1 ≤ tailWidth (resolve cfg index) ∧ tailWidth (resolve cfg index) ≤ 7 ∧
      1 ≤ headWidth cfg (resolve cfg index) ∧ headWidth cfg (resolve cfg index) ≤ 7 ∧
      elementValue cfg m index =
        (m.unitAt (resolve cfg index).unit).toNat % 2 ^ tailWidth (resolve cfg index) * 2 ^ headWidth cfg (resolve cfg index) +
        (m.unitAt ((resolve cfg index).unit + 1)).toNat / 2 ^ (8 - headWidth cfg (resolve cfg index)))

/-- Rules R15 and R86: what the 8-bit shifts compute, and that every shift amount of GET, SET and CLR is 0 to 7. -/
def Obligations.ShiftAmountsBelowEight : Prop :=
  (∀ (x : Byte) (n : Nat), (shl8 x n).toNat = x.toNat * 2 ^ n % 256 ∧ (shr8 x n).toNat = x.toNat / 2 ^ n) ∧
  ∀ (cfg : Config) (index : Nat),
    (resolve cfg index).offset ≤ 7 ∧ 8 - cfg.bits ≤ 7 ∧ cfg.bits ≤ 8 ∧
    ((resolve cfg index).spans = false →
      (resolve cfg index).offset + cfg.bits ≤ 8 ∧ 8 - (resolve cfg index).offset - cfg.bits ≤ 7) ∧
    ((resolve cfg index).spans = true →
      9 ≤ (resolve cfg index).offset + cfg.bits ∧ (resolve cfg index).offset + cfg.bits ≤ 15 ∧
      16 - ((resolve cfg index).offset + cfg.bits) = 8 - headWidth cfg (resolve cfg index) ∧
      1 ≤ 8 - headWidth cfg (resolve cfg index) ∧ 8 - headWidth cfg (resolve cfg index) ≤ 7 ∧
      1 ≤ headWidth cfg (resolve cfg index) ∧ headWidth cfg (resolve cfg index) ≤ 7)

/-- Rule R87: the truncation test is exact, and its forms that need no 9-bit constant agree with it. -/
def Obligations.TruncationTestIsExact : Prop :=
  ∀ (cfg : Config) (value : Byte),
    (truncates cfg value = true ↔ 2 ^ cfg.bits ≤ value.toNat) ∧
    (truncates cfg value = true ↔ value.toNat / 2 ^ cfg.bits ≠ 0) ∧
    (truncates cfg value = true ↔ ∃ k, cfg.bits ≤ k ∧ k < 8 ∧ value.getLsbD k = true) ∧
    (cfg.bits = 8 → truncates cfg value = false)

/-- Rule R45: the pad bits are the `P` least-significant bits of the last unit, `0 <= P <= 7`, and belong to no element;
every other offset belongs to exactly one element. -/
def Obligations.PadBitsBelongToNoElement : Prop :=
  ∀ cfg : Config,
    cfg.bits * cfg.len + cfg.padBits = 8 * cfg.nbytes ∧ cfg.padBits ≤ 7 ∧
    (∀ abs, cfg.bits * cfg.len ≤ abs → abs < 8 * cfg.nbytes →
      abs / 8 = cfg.nbytes - 1 ∧ 7 - abs % 8 < cfg.padBits ∧ ∀ i, i < cfg.len → inElement cfg i abs = false) ∧
    (∀ abs, abs < cfg.bits * cfg.len → ∃ i, i < cfg.len ∧ inElement cfg i abs = true ∧
      ∀ j, inElement cfg j abs = true → j = i)

/-! ### GET -/

/-- Rules R84 and R90: GET of an index in range completes with the element's value, by the shifts of the rule, and changes
nothing else; GET of an index out of range faults with INDEX_RANGE before any read. -/
def Obligations.GetReadsTheElement : Prop :=
  ∀ (s : State) (index : Nat),
    (index < s.cfg.len →
      let B := s.cfg.bits
      let u := index * B / 8
      let o := index * B % 8
      let r := ((s.storage.unitAt u <<< o) >>> (8 - B)) &&& BitVec.ofNat 8 (2 ^ B - 1)
      let d := if o + B > 8 then r ||| (s.storage.unitAt (u + 1) >>> (16 - (o + B))) else r
      exec (.get index) s = .next { s with rsp := some (0x00#8 ++ d), warn := false } ∧ d.toNat < 2 ^ B) ∧
    (s.cfg.len ≤ index →
      exec (.get index) s = .next { s with fault := true, fcause := 1#2, fcmd := s.pins.cmd, rsp := some 0x8100#16,
                                           warn := false })

/-- Rule R91: the shift form, the window form and the layout form of GET agree, for every content of the storage. -/
def Obligations.GetFormsAgree : Prop :=
  ∀ (cfg : Config) (m : Memory) (index : Nat), index < cfg.len →
    ∃ r, readElement cfg m index = some r ∧
      r.toNat = window cfg m (resolve cfg index).unit / 2 ^ (16 - (resolve cfg index).offset - cfg.bits) % 2 ^ cfg.bits ∧
      r.toNat = elementValue cfg m index ∧
      (∀ k, k < cfg.bits → r.getLsbD (cfg.bits - 1 - k) = storageBit m (index * cfg.bits + k)) ∧
      ((resolve cfg index).spans = false → 8 ≤ 16 - (resolve cfg index).offset - cfg.bits)

/-- Rule R92: GET changes nothing, and two GETs of one index with only GETs and RDBs between them return the same. -/
def Obligations.GetChangesNothing : Prop :=
  ∀ (s : State) (index : Nat), index < s.cfg.len →
    (∃ t, exec (.get index) s = .next t ∧ t.storage = s.storage ∧ t.fault = s.fault ∧ t.fcause = s.fcause ∧
      t.fcmd = s.fcmd ∧ t.diag = s.diag ∧ t.cfg = s.cfg ∧ t.inputs = s.inputs) ∧
    ∀ (ws : List CommandWord) (t : State) (rs : List ResponseWord), s.fault = false →
      (∀ w ∈ ws, opField w ∈ [0x1#4, 0x4#4]) → issueAll ws s = some (t, rs) → t.fault = false →
      t.storage = s.storage ∧
      ∃ u u' r, issue (encode (.get index)) s = some (u, r) ∧ issue (encode (.get index)) t = some (u', r)

/-- Rule R93: after reset and before any SET or WRB, GET of every element responds `0x0000`; and RDB of every unit
(rule R171). -/
def Obligations.FreshBlockReadsZero : Prop :=
  ∀ (s t t' : State) (ws : List CommandWord) (rs : List ResponseWord), s.pins.rst = true → step s = .next t →
    (∀ w ∈ ws, opField w ∉ [0x2#4, 0x5#4]) → issueAll ws t = some (t', rs) → t'.fault = false →
    (∀ i, i < t'.cfg.len → ∃ u, issue (encode (.get i)) t' = some (u, 0x0000#16)) ∧
    (∀ a, a < t'.cfg.nbytes → ∃ u, issue (encode (.rdb a)) t' = some (u, 0x0000#16))

/-! ### SET -/

/-- Rules R100, R101, R102: SET of an index in range completes; the addressed units hold the old bits outside the element
and `value mod 2^BITS` inside it; every other unit reads as before; `WRN`, the pulse and one `DIAG` event exactly when
`value >= 2^BITS`; nothing else changes. Out of range it faults with INDEX_RANGE and warns of nothing. -/
def Obligations.SetWritesTheElement : Prop :=
  ∀ (s : State) (index : Nat) (value : Byte),
    (s.storage.wf = true → index < s.cfg.len →
      let B := s.cfg.bits
      let u := index * B / 8
      let o := index * B % 8
      let v := BitVec.ofNat 8 (value.toNat % 2 ^ B)
      let h := 8 - o
      let l := o + B - 8
      ∃ m : Memory,
        (2 ^ B ≤ value.toNat → exec (.set index value) s =
          .next { s with storage := m, rsp := some 0x4000#16, warn := true, diag := s.diag ++ [(index, value)] }) ∧
        (value.toNat < 2 ^ B → exec (.set index value) s =
          .next { s with storage := m, rsp := some 0x0000#16, warn := false }) ∧
        (o + B ≤ 8 →
          m.unitAt u = (s.storage.unitAt u &&& ~~~ (BitVec.ofNat 8 (2 ^ B - 1) <<< (8 - o - B))) ||| (v <<< (8 - o - B)) ∧
          ∀ a, a ≠ u → m.unitAt a = s.storage.unitAt a) ∧
        (8 < o + B →
          m.unitAt u = (s.storage.unitAt u &&& ~~~ (BitVec.ofNat 8 (2 ^ h - 1))) ||| (v >>> l) ∧
          m.unitAt (u + 1) = (s.storage.unitAt (u + 1) &&& (0xFF#8 >>> l)) ||| (v <<< (8 - l)) ∧
          ∀ a, a ≠ u → a ≠ u + 1 → m.unitAt a = s.storage.unitAt a)) ∧
    (s.cfg.len ≤ index →
      exec (.set index value) s = .next { s with fault := true, fcause := 1#2, fcmd := s.pins.cmd, rsp := some 0x8100#16,
                                                 warn := false })

/-- Rule R104, all five items: what a GET after a SET returns, for the element and for every other one; every storage bit
outside the element is unchanged; the fault registers are unchanged; the new storage depends on the old storage, `index`
and `value mod 2^BITS` only. -/
def Obligations.SetPostconditions : Prop :=
  ∀ (s : State) (index : Nat) (value : Byte), s.storage.wf = true → index < s.cfg.len →
    ∃ t, exec (.set index value) s = .next t ∧
      (∃ u r, exec (.get index) t = .next u ∧ u.rsp = some r ∧ (rspData r).toNat = value.toNat % 2 ^ s.cfg.bits) ∧
      (∀ j, j < s.cfg.len → j ≠ index →
        ∃ u u', exec (.get j) s = .next u ∧ exec (.get j) t = .next u' ∧ u'.rsp = u.rsp) ∧
      (∀ abs, inElement s.cfg index abs = false → storageBit t.storage abs = storageBit s.storage abs) ∧
      (∀ a, writesUnit s.cfg index a = false → t.storage.unitAt a = s.storage.unitAt a) ∧
      t.fault = s.fault ∧ t.fcause = s.fcause ∧ t.fcmd = s.fcmd ∧
      (∀ (s' t' : State) (value' : Byte), s'.cfg = s.cfg → s'.storage = s.storage →
        value'.toNat % 2 ^ s.cfg.bits = value.toNat % 2 ^ s.cfg.bits → exec (.set index value') s' = .next t' →
        t'.storage = t.storage)

/-- Rule R105: after SET the `BITS`-bit field of the element is `value mod 2^BITS`, most-significant bit first, and the
units are those of the window form. -/
def Obligations.SetClosedForm : Prop :=
  ∀ (s t : State) (index : Nat) (value : Byte), s.storage.wf = true → index < s.cfg.len →
    exec (.set index value) s = .next t →
    (∀ k, k < s.cfg.bits → storageBit t.storage (index * s.cfg.bits + k) =
      (value.toNat % 2 ^ s.cfg.bits).testBit (s.cfg.bits - 1 - k)) ∧
    (∀ abs, inElement s.cfg index abs = false → storageBit t.storage abs = storageBit s.storage abs) ∧
    (let W' := windowReplace s.cfg s.storage index (value.toNat % 2 ^ s.cfg.bits)
     let u := (resolve s.cfg index).unit
     (t.storage.unitAt u).toNat = W'.toNat / 256 ∧
     ((resolve s.cfg index).spans = true → (t.storage.unitAt (u + 1)).toNat = W'.toNat % 256) ∧
     ((resolve s.cfg index).spans = false →
       8 ≤ windowShift s.cfg index ∧ W'.toNat % 256 = window s.cfg s.storage u % 256 ∧
       t.storage.unitAt (u + 1) = s.storage.unitAt (u + 1)))

/-- Rule R103: at `BITS = 8` no SET warns; for `BITS < 8` the values that warn are `2^BITS` to 255. -/
def Obligations.FullWidthNeverWarns : Prop :=
  ∀ (s : State) (index : Nat) (value : Byte), index < s.cfg.len →
    ∃ t r, exec (.set index value) s = .next t ∧ t.rsp = some r ∧ rspWrn r = t.warn ∧
      (s.cfg.bits = 8 → t.warn = false ∧ t.diag = s.diag ∧ (truncated s.cfg value) = value) ∧
      (s.cfg.bits < 8 → (t.warn = true ↔ 2 ^ s.cfg.bits ≤ value.toNat ∧ value.toNat ≤ 255))

/-- Rule R152: two values that are equal modulo `2^BITS` leave the same storage; the SETs differ only in the warning. -/
def Obligations.AliasedSetsStoreTheSame : Prop :=
  ∀ (s : State) (index : Nat) (value value' : Byte), index < s.cfg.len →
    value.toNat % 2 ^ s.cfg.bits = value'.toNat % 2 ^ s.cfg.bits →
    ∃ t t', exec (.set index value) s = .next t ∧ exec (.set index value') s = .next t' ∧
      t' = { t with rsp := t'.rsp, warn := t'.warn, diag := t'.diag } ∧
      (value.toNat < 2 ^ s.cfg.bits → value ≠ value' → t.diag = s.diag ∧ t'.diag = s.diag ++ [(index, value')])

/-! ### CLR -/

/-- Rules R84 and R106: CLR of an index in range completes with `0x0000`; the element's bits are cleared in the addressed
units, every other unit reads as before, nothing else changes. Out of range it faults with INDEX_RANGE. -/
def Obligations.ClrClearsTheElement : Prop :=
  ∀ (s : State) (index : Nat),
    (s.storage.wf = true → index < s.cfg.len →
      let B := s.cfg.bits
      let u := index * B / 8
      let o := index * B % 8
      let h := 8 - o
      let l := o + B - 8
      ∃ m : Memory,
        exec (.clr index) s = .next { s with storage := m, rsp := some 0x0000#16, warn := false } ∧
        (o + B ≤ 8 →
          m.unitAt u = s.storage.unitAt u &&& ~~~ (BitVec.ofNat 8 (2 ^ B - 1) <<< (8 - o - B)) ∧
          ∀ a, a ≠ u → m.unitAt a = s.storage.unitAt a) ∧
        (8 < o + B →
          m.unitAt u = s.storage.unitAt u &&& ~~~ (BitVec.ofNat 8 (2 ^ h - 1)) ∧
          m.unitAt (u + 1) = s.storage.unitAt (u + 1) &&& (0xFF#8 >>> l) ∧
          ∀ a, a ≠ u → a ≠ u + 1 → m.unitAt a = s.storage.unitAt a)) ∧
    (s.cfg.len ≤ index →
      exec (.clr index) s = .next { s with fault := true, fcause := 1#2, fcmd := s.pins.cmd, rsp := some 0x8100#16,
                                           warn := false })

/-- Rule R107: after CLR the element reads 0, every other element and every bit outside it is unchanged, a second CLR
changes nothing, and the fault registers and `DIAG` are unchanged. -/
def Obligations.ClrPostconditions : Prop :=
  ∀ (s : State) (index : Nat), s.storage.wf = true → index < s.cfg.len →
    ∃ t, exec (.clr index) s = .next t ∧ t.rsp = some 0x0000#16 ∧
      (∃ u, exec (.get index) t = .next u ∧ u.rsp = some 0x0000#16) ∧
      (∀ j, j < s.cfg.len → j ≠ index →
        ∃ u u', exec (.get j) s = .next u ∧ exec (.get j) t = .next u' ∧ u'.rsp = u.rsp) ∧
      (∀ abs, inElement s.cfg index abs = false → storageBit t.storage abs = storageBit s.storage abs) ∧
      exec (.clr index) t = .next t ∧
      t.fault = s.fault ∧ t.fcause = s.fcause ∧ t.fcmd = s.fcmd ∧ t.diag = s.diag

/-- Rule R108: in range, CLR and SET 0 complete with the same next state, so with the same storage, and with the response
`0x0000`; they differ only as encodings. -/
def Obligations.ClrIsSetZero : Prop :=
  (∀ (s : State) (index : Nat), index < s.cfg.len →
    ∃ t, exec (.clr index) s = .next t ∧ exec (.set index 0#8) s = .next t ∧ t.rsp = some 0x0000#16) ∧
  ∀ index : Nat, encode (.clr index) ≠ encode (.set index 0#8)

/-! ### RDB and WRB -/

/-- Rules R120 and R122: RDB of a unit of the storage completes with its byte, verbatim and in storage order, and changes
nothing else; past the end it faults with BYTE_RANGE. -/
def Obligations.RdbReadsTheUnit : Prop :=
  ∀ (s : State) (addr : Nat),
    (addr < s.cfg.nbytes →
      exec (.rdb addr) s = .next { s with rsp := some (0x00#8 ++ s.storage.unitAt addr), warn := false } ∧
      ∀ k, k < 8 → (s.storage.unitAt addr).getLsbD (7 - k) = storageBit s.storage (8 * addr + k)) ∧
    (s.cfg.nbytes ≤ addr →
      exec (.rdb addr) s = .next { s with fault := true, fcause := 3#2, fcmd := s.pins.cmd, rsp := some 0x8300#16,
                                          warn := false })

/-- Rules R121 and R122: WRB to a unit of the storage completes with `0x0000` and no warning; the unit becomes the byte,
every other unit reads as before, nothing else changes; past the end it faults with BYTE_RANGE. -/
def Obligations.WrbWritesTheUnit : Prop :=
  ∀ (s : State) (addr : Nat) (byte : Byte),
    (s.storage.wf = true → addr < s.cfg.nbytes →
      ∃ m : Memory, exec (.wrb addr byte) s = .next { s with storage := m, rsp := some 0x0000#16, warn := false } ∧
        m.unitAt addr = byte ∧ ∀ a, a ≠ addr → m.unitAt a = s.storage.unitAt a) ∧
    (s.cfg.nbytes ≤ addr →
      exec (.wrb addr byte) s = .next { s with fault := true, fcause := 3#2, fcmd := s.pins.cmd, rsp := some 0x8300#16,
                                               warn := false })

/-- Rule R31: `Canon(S)` says that every pad bit is 0; it holds after reset; every command but WRB preserves it both
ways; WRB to the last unit decides it by the `P` low bits of the byte (rule R123), and WRB elsewhere preserves it. -/
def Obligations.CanonicalStorage : Prop :=
  (∀ (cfg : Config) (m : Memory), canonical cfg m = true ↔
    ∀ abs, cfg.bits * cfg.len ≤ abs → abs < 8 * cfg.nbytes → storageBit m abs = false) ∧
  (∀ s t : State, s.pins.rst = true → step s = .next t → canonical t.cfg t.storage = true) ∧
  (∀ (s t : State) (i : Instr), s.storage.wf = true → exec i s = .next t → (∀ a b, i ≠ .wrb a b) →
    canonical t.cfg t.storage = canonical s.cfg s.storage) ∧
  (∀ (s : State) (addr : Nat) (byte : Byte), s.storage.wf = true → addr < s.cfg.nbytes →
    ∃ t, exec (.wrb addr byte) s = .next t ∧
      canonical t.cfg t.storage =
        if addr = s.cfg.nbytes - 1 then decide (byte.toNat % 2 ^ s.cfg.padBits = 0) else canonical s.cfg s.storage)

/-- 20_memory.md R40: the two views are the same bits. The byte a RDB returns after a SET or CLR, and the element a GET
returns after a WRB, are those of the one storage. -/
def Obligations.ViewsShowTheSameBits : Prop :=
  (∀ (s t : State) (index a : Nat) (value : Byte), s.storage.wf = true → index < s.cfg.len → a < s.cfg.nbytes →
    exec (.set index value) s = .next t →
    ∃ u r, exec (.rdb a) t = .next u ∧ u.rsp = some r ∧
      ∀ k, k < 8 → (rspData r).getLsbD (7 - k) =
        if inElement s.cfg index (8 * a + k)
        then (value.toNat % 2 ^ s.cfg.bits).testBit (s.cfg.bits - 1 - (8 * a + k - index * s.cfg.bits))
        else storageBit s.storage (8 * a + k)) ∧
  (∀ (s t : State) (i a : Nat) (byte : Byte), s.storage.wf = true → i < s.cfg.len → a < s.cfg.nbytes →
    exec (.wrb a byte) s = .next t →
    ∃ u r, exec (.get i) t = .next u ∧ u.rsp = some r ∧
      ∀ k, k < s.cfg.bits → (rspData r).getLsbD (s.cfg.bits - 1 - k) =
        if (i * s.cfg.bits + k) / 8 = a then byte.getLsbD (7 - (i * s.cfg.bits + k) % 8)
        else storageBit s.storage (i * s.cfg.bits + k))

/-- 20_memory.md R46: issuing a command twice in a row leaves the storage of issuing it once. -/
def Obligations.CommandsAreIdempotent : Prop :=
  ∀ (s t u : State) (i : Instr), s.storage.wf = true → exec i s = .next t → exec i t = .next u →
    u.storage = t.storage

/-- Rules R20 and R46, for the whole machine: in a step that is no reset, a unit changes only when the block accepts a SET or
CLR in range whose element has bits in that unit, or a WRB in range of that unit. -/
def Obligations.UnitsChangeOnlyByTheirCommands : Prop :=
  ∀ (s t : State) (a : Nat), s.storage.wf = true → s.pins.rst = false → step s = .next t →
    t.storage.unitAt a ≠ s.storage.unitAt a →
    Accepts s s.pins.cmd ∧ faultCause s.cfg s.pins.cmd = none ∧
      ((opField s.pins.cmd ∈ [0x2#4, 0x3#4] ∧ writesUnit s.cfg (idxField s.pins.cmd).toNat a = true) ∨
        (opField s.pins.cmd = 0x5#4 ∧ a = (idxField s.pins.cmd).toNat))

/-! ### Faults, the warning, halting and reset -/

/-- Rules R142 and R144: a ready block that accepts a word completes it or takes the fault of the rule, and nothing
else. `faultCause` is the table of rule R141 in the order of rule R143. -/
def Obligations.EveryCommandCompletesOrFaults : Prop :=
  ∀ (s : State) (w : CommandWord), Accepts s w →
    match faultCause s.cfg w with
    | some c =>
      step s = .next { s with fault := true, fcause := causeCode c, fcmd := w,
                              rsp := some (BitVec.ofNat 16 (0x8000 + (causeCode c).toNat * 0x100)), warn := false,
                              inputs := s.inputs.tail }
    | none =>
      ∃ t r, step s = .next t ∧ t.fault = false ∧ t.fcause = s.fcause ∧ t.fcmd = s.fcmd ∧ t.cfg = s.cfg ∧
        t.inputs = s.inputs.tail ∧ t.rsp = some r ∧ rspFlt r = false ∧ rspCause r = 0#2

/-- Rule R143: the order of the checks, in terms of the word's fields: illegal first, whatever `IDX` is; then the range;
only then the warning of a SET, and no other word warns. -/
def Obligations.ChecksInOrder : Prop :=
  ∀ (s : State) (w : CommandWord), Accepts s w →
    (rsvField w ≠ 0#4 ∨ opField w ∉ [0x1#4, 0x2#4, 0x3#4, 0x4#4, 0x5#4] →
      ∃ t, step s = .next t ∧ t.fault = true ∧ t.fcause = 2#2 ∧ t.diag = s.diag ∧ t.warn = false) ∧
    (rsvField w = 0#4 → opField w ∈ [0x1#4, 0x2#4, 0x3#4] → s.cfg.len ≤ (idxField w).toNat →
      ∃ t, step s = .next t ∧ t.fault = true ∧ t.fcause = 1#2 ∧ t.diag = s.diag ∧ t.warn = false) ∧
    (rsvField w = 0#4 → opField w ∈ [0x4#4, 0x5#4] → s.cfg.nbytes ≤ (idxField w).toNat →
      ∃ t, step s = .next t ∧ t.fault = true ∧ t.fcause = 3#2 ∧ t.diag = s.diag ∧ t.warn = false) ∧
    (rsvField w = 0#4 → opField w = 0x2#4 → (idxField w).toNat < s.cfg.len → 2 ^ s.cfg.bits ≤ (valField w).toNat →
      ∃ t, step s = .next t ∧ t.fault = false ∧ t.diag = s.diag ++ [((idxField w).toNat, valField w)] ∧ t.warn = true) ∧
    (∀ t, step s = .next t → t.warn = true ∨ t.diag ≠ s.diag →
      rsvField w = 0#4 ∧ opField w = 0x2#4 ∧ (idxField w).toNat < s.cfg.len ∧ 2 ^ s.cfg.bits ≤ (valField w).toNat)

/-- Rule R68: the response of an accepted command, field by field. -/
def Obligations.ResponseFields : Prop :=
  ∀ (s : State) (w : CommandWord), Accepts s w →
    ∃ t r, step s = .next t ∧ t.rsp = some r ∧ rspZero r = 0#4 ∧ rspFlt r = (faultCause s.cfg w).isSome ∧
      rspCause r = ((faultCause s.cfg w).map causeCode).getD 0#2 ∧
      (rspWrn r = true ↔ faultCause s.cfg w = none ∧ opField w = 0x2#4 ∧ 2 ^ s.cfg.bits ≤ (valField w).toNat) ∧
      ((rspData r).toNat =
        if (faultCause s.cfg w).isSome then 0
        else if opField w = 0x1#4 then elementValue s.cfg s.storage (idxField w).toNat
        else if opField w = 0x4#4 then (s.storage.unitAt (idxField w).toNat).toNat
        else 0)

/-- Rules R150 and R151: `DIAG` grows by exactly one event, the pair of index and presented value, when the step is a SET
in range with `value >= 2^BITS`, and by nothing otherwise; the pulse and `WRN` say the same. -/
def Obligations.WarningOnlyOfTruncatingSet : Prop :=
  ∀ s t : State, step s = .next t →
    ((Accepts s s.pins.cmd ∧ ∃ index value, decode s.pins.cmd = .command (.set index value) ∧ index < s.cfg.len ∧
        2 ^ s.cfg.bits ≤ value.toNat ∧ t.diag = s.diag ++ [(index, value)] ∧ t.warn = true ∧ t.rsp = some 0x4000#16 ∧
        t.fault = false ∧ t.fcause = s.fcause ∧ t.fcmd = s.fcmd) ∨
      (t.diag = s.diag ∧ t.warn = false ∧ (∀ r ∈ t.rsp, rspWrn r = false) ∧
        ¬ (Accepts s s.pins.cmd ∧ ∃ index value, decode s.pins.cmd = .command (.set index value) ∧ index < s.cfg.len ∧
          2 ^ s.cfg.bits ≤ value.toNat)))

/-- Rule R146: a halted block takes no command, whatever is on the port; the only step enabled is reset. -/
def Obligations.HaltedBlockTakesOnlyReset : Prop :=
  ∀ s : State, s.fault = true →
    s.outputs.cmdReady = false ∧
    (s.pins.rst = false → step s = .fault .halted) ∧
    (s.pins.rst = true → ∃ t, step s = .next t ∧ t.fault = false ∧ t.outputs.cmdReady = true)

/-- Rule R24: `FAULT` is set by a faulting command and by nothing else, and only reset clears it; while it is set no
command is accepted. `FCAUSE` and `FCMD` are then of that command. -/
def Obligations.FaultLatchIsSticky : Prop :=
  ∀ s t : State, step s = .next t →
    (s.fault = true → s.pins.rst = true ∧ t.fault = false) ∧
    (s.pins.rst = true → t.fault = false) ∧ t.outputs.fault = t.fault ∧ s.outputs.fault = s.fault ∧
    (t.fault = true → ∃ c, Accepts s s.pins.cmd ∧ faultCause s.cfg s.pins.cmd = some c ∧ t.fcause = causeCode c ∧
      t.fcmd = s.pins.cmd ∧ t.storage = s.storage) ∧
    (t.fault = false → s.pins.rst = false → t.fcause = s.fcause ∧ t.fcmd = s.fcmd)

/-- Rule R30: what reset leaves, from any state, and what it does not touch; the block is ready (rule R171). -/
def Obligations.ResetLeavesZero : Prop :=
  ∀ s : State, s.pins.rst = true →
    ∃ t, step s = .next t ∧ (∀ u, t.storage.unitAt u = 0x00#8) ∧ t.fault = false ∧ t.fcause = 0#2 ∧ t.fcmd = 0#32 ∧
      t.cfg = s.cfg ∧ t.diag = s.diag ∧ t.inputs = s.inputs.tail ∧
      t.outputs = { cmdReady := true, rsp := none, warn := false, fault := false, fcause := 0#2, fcmd := 0#32 }

/-- Rule R172: two resets in a row equal one. -/
def Obligations.TwoResetsAreOne : Prop :=
  ∀ s t : State, s.pins.rst = true → step s = .next t → t.pins.rst = true →
    step t = .next { t with inputs := t.inputs.tail }

/-- The invariant holds of `State.resetOf`, for every instance, and in particular of `State.reset`. The clauses about the
storage and the fault registers are rules R30 and R32. The clause about `DIAG` rests on the model's choice that the trace is
empty there (log entry 8, DESIGN CHOICE: rule R30 leaves `DIAG` unchanged), and `State.reset` is of the instance the model
chose (log entry 1, DESIGN CHOICE). -/
def Obligations.ResetMeetsTheInvariant : Prop :=
  (∀ cfg : Config, (State.resetOf cfg).Inv) ∧ State.reset.Inv

/-- Every step keeps the invariant: the storage list stays canonical and inside the `NBYTES` units, the fault registers
agree with each other (rule R32), and the outputs stay legal. -/
def Obligations.EveryStepKeepsTheInvariant : Prop :=
  ∀ s t : State, s.Inv → step s = .next t → t.Inv

/-- Rules R21 and R27: no step changes `BITS`, `LEN` or `NBYTES`, and no unit outside the storage ever holds a value. -/
def Obligations.ConstantsNeverChange : Prop :=
  ∀ s t : State, step s = .next t →
    t.cfg = s.cfg ∧ (s.storage.within s.cfg.nbytes = true → t.storage.within t.cfg.nbytes = true)

/-- Rule R28: the outputs and the trace decide nothing. Two states that differ only in the response, the pulse and `DIAG`
step alike, and a step appends the same events to both traces. -/
def Obligations.OutputsAreNeverRead : Prop :=
  ∀ (s : State) (rsp' : Option ResponseWord) (warn' : Bool) (diag' : List (Nat × Byte)),
    (∀ t, step s = .next t → ∃ e, t.diag = s.diag ++ e ∧
      step { s with rsp := rsp', warn := warn', diag := diag' } = .next { t with diag := diag' ++ e }) ∧
    (∀ f, step s = .fault f → step { s with rsp := rsp', warn := warn', diag := diag' } = .fault f) ∧
    (∀ r, step s ≠ .refused r)

/-- 20_memory.md R48: when `LEN = 0` every GET, SET, CLR, RDB and WRB faults, so every accepted word does. -/
def Obligations.EmptyInstanceAlwaysFaults : Prop :=
  ∀ (s : State) (w : CommandWord), s.cfg.len = 0 → Accepts s w → ∃ t, step s = .next t ∧ t.fault = true

/-- A ready block that is offered nothing waits: its outputs go low and nothing else changes. The model's choice, log
entry 5, from "Nothing else acts" (rule R10). -/
def Obligations.ReadyBlockWaits : Prop :=
  ∀ s : State, s.pins.rst = false → s.fault = false → s.pins.cmdValid = false →
    step s = .next { s with rsp := none, warn := false, inputs := s.inputs.tail }

/-- A step runs the decoded command: when a ready block accepts a word that decodes to a well-formed command, the step is
`exec` of it at that state, and the host then moves to its next drive. `withFetchWord` puts a word where that happens. -/
def Obligations.StepRunsTheDecodedCommand : Prop :=
  (∀ (s : State) (w : CommandWord) (i : Instr), Accepts s w → decode w = .command i →
    WellFormed i ∧
    (∀ t, exec i s = .next t → step s = .next { t with inputs := t.inputs.tail }) ∧
    (∀ f, exec i s = .fault f → step s = .fault f) ∧
    (∀ r, exec i s = .refused r → step s = .refused r)) ∧
  (∀ (s : State) (nbits w : Nat) (i : Instr), s.fault = false → decodeTableWord nbits w = some i →
    Accepts (s.withFetchWord nbits w) (BitVec.ofNat 32 (w % 2 ^ nbits)) ∧
    decode (BitVec.ofNat 32 (w % 2 ^ nbits)) = .command i)

/-! ### The host's pseudo-operations -/

/-- Rule R130: SIZE. -/
def Obligations.SizeOfStorage : Prop :=
  (∀ b n : Nat, b * n ≤ 8 * size b n ∧ 8 * size b n < b * n + 8) ∧
  (∀ b : Nat, size b 0 = 0) ∧ (∀ n : Nat, size 8 n = n) ∧ (∀ cfg : Config, cfg.nbytes = size cfg.bits cfg.len) ∧
  size 3 4 = 2 ∧ size 3 9 = 4 ∧ size 8 1 = 1 ∧ size 1 8 = 1 ∧ size 5 4 = 3

/-- Rules R131 and R132: UNPACK issues `GET 0` to `GET LEN-1`, never faults on a block that is not halted, gives the
elements in order, and leaves the block as it was. -/
def Obligations.UnpackGivesTheElements : Prop :=
  ∀ s : State, s.fault = false →
    (getCommands s.cfg).length = s.cfg.len ∧
    (∀ i, i < s.cfg.len → (getCommands s.cfg)[i]? = some (encode (.get i))) ∧
    ∃ t, unpackRun s = some (t, elementsOf s.cfg s.storage) ∧
      t = { s with rsp := t.rsp, warn := t.warn } ∧ (s.cfg.len = 0 → t = s) ∧
      (elementsOf s.cfg s.storage).length = s.cfg.len

/-- Rule R133: a request to ITER yields the element the counter names, current at that request, and the next counter, for
every counter below `LEN`, and leaves the block as it was; at `LEN` it is over and the state, with no command issued, is
unchanged. From the counter 0, with nothing interleaved, it yields the values of UNPACK in order, once, and ends. -/
def Obligations.IteratorYieldsTheElements : Prop :=
  ∀ (s : State) (n : Nat), s.fault = false →
    (n < s.cfg.len → ∃ d t, iterNext n s = .value d (n + 1) t ∧ d.toNat = elementValue s.cfg s.storage n ∧
      t = { s with rsp := t.rsp, warn := t.warn }) ∧
    (s.cfg.len ≤ n → iterNext n s = .done) ∧
    iterStart = 0 ∧
    (∃ t, iterRun s = some (t, elementsOf s.cfg s.storage) ∧ unpackRun s = some (t, elementsOf s.cfg s.storage) ∧
      t = { s with rsp := t.rsp, warn := t.warn } ∧ iterNext s.cfg.len t = .done)

/-- Rules R134, R135, R136 and R137: the runs of EQP, EQA, HASH and SER give the functions of the storage they stand for,
and leave the block as it was. -/
def Obligations.HostRunsComputeTheirFunctions : Prop :=
  ∀ s : State, s.fault = false →
    (∀ b : List Byte, b.length = s.cfg.nbytes → ∃ t, eqpRun b s = some (t, decide (∀ a, a < s.cfg.nbytes →
        b[a]? = some (s.storage.unitAt a))) ∧ t = { s with rsp := t.rsp, warn := t.warn }) ∧
    (∀ x : List Byte, x.length = s.cfg.len → ∃ t, eqaRun x s = some (t, decide (∀ i, i < s.cfg.len →
        (x[i]?).map BitVec.toNat = some (elementValue s.cfg s.storage i))) ∧ t = { s with rsp := t.rsp, warn := t.warn }) ∧
    (∀ (α : Type) (hashFn : List Byte → α), ∃ t, hashRun hashFn s = some (t, hashFn (bytesOf s.cfg s.storage)) ∧
      t = { s with rsp := t.rsp, warn := t.warn }) ∧
    (∃ t, serRun s = some (t, bytesOf s.cfg s.storage) ∧ t = { s with rsp := t.rsp, warn := t.warn })

/-- Rules R124 and R137: DESER of `NBYTES` bytes leaves exactly those bytes, UNPACK then gives the elements cut from them,
and SER followed by DESER on an instance of the same BITS and LEN gives the first one's storage. DESER cannot run
on a halted block. -/
def Obligations.DeserAfterSerReproduces : Prop :=
  (∀ (s : State) (b : List Byte), s.storage.wf = true → s.fault = false → b.length = s.cfg.nbytes →
    ∃ t, deserRun b s = some t ∧ t.fault = false ∧ t.cfg = s.cfg ∧ t.diag = s.diag ∧ bytesOf t.cfg t.storage = b ∧
      ∃ u, unpackRun t = some (u, elementsOf s.cfg (Memory.ofBytes 0 b))) ∧
  (∀ s t : State, s.Inv → t.Inv → s.fault = false → t.fault = false → t.cfg = s.cfg →
    ∃ s' b t', serRun s = some (s', b) ∧ deserRun b t = some t' ∧ t'.storage = s.storage) ∧
  (∀ (s : State) (b : List Byte), s.fault = true → deserRun b s = none)

/-- Rule R139: EQP true implies EQA true and equal hashes; the converse holds for canonical storages, and so always when
`BITS*LEN` is a multiple of 8; it fails for some storages with pad bits set. -/
def Obligations.EqualitiesAreConsistent : Prop :=
  (∀ (cfg : Config) (m m' : Memory), eqp? cfg m (bytesOf cfg m') = some true →
    eqa? cfg m (elementsOf cfg m') = some true ∧
    ∀ (α : Type) (hashFn : List Byte → α), hashOf hashFn cfg m = hashOf hashFn cfg m') ∧
  (∀ (cfg : Config) (m m' : Memory), canonical cfg m = true → canonical cfg m' = true →
    eqa? cfg m (elementsOf cfg m') = some true → eqp? cfg m (bytesOf cfg m') = some true) ∧
  (∀ (cfg : Config) (m : Memory), cfg.bits * cfg.len % 8 = 0 → canonical cfg m = true) ∧
  (∃ (cfg : Config) (m m' : Memory), canonical cfg m = true ∧ canonical cfg m' = false ∧
    eqa? cfg m (elementsOf cfg m') = some true ∧ eqp? cfg m (bytesOf cfg m') = some false)
end

