-- ==== Sys2Proof/Laws/Encoding.lean ====
section
/-! SUPPORT. The fields of a packed command word and of a packed response word, one lemma each. -/

namespace Sys2Proof

@[simp] theorem opField_packCommand (op : BitVec 4) (idx : BitVec 16) (val : Byte) :
    opField (packCommand op idx val) = op := by
  ext k hk
  simp only [opField, packCommand, BitVec.getElem_extractLsb', BitVec.getLsbD_append]
  rw [if_neg (by omega), if_neg (by omega), if_neg (by omega), show 28 + k - 8 - 16 - 4 = k by omega,
    BitVec.getLsbD_eq_getElem hk]

@[simp] theorem rsvField_packCommand (op : BitVec 4) (idx : BitVec 16) (val : Byte) :
    rsvField (packCommand op idx val) = 0#4 := by
  ext k hk
  simp only [rsvField, packCommand, BitVec.getElem_extractLsb', BitVec.getLsbD_append]
  rw [if_neg (by omega), if_neg (by omega), if_pos (by omega)]
  simp

@[simp] theorem idxField_packCommand (op : BitVec 4) (idx : BitVec 16) (val : Byte) :
    idxField (packCommand op idx val) = idx := by
  ext k hk
  simp only [idxField, packCommand, BitVec.getElem_extractLsb', BitVec.getLsbD_append]
  rw [if_neg (by omega), if_pos (by omega), show 8 + k - 8 = k by omega, BitVec.getLsbD_eq_getElem hk]

@[simp] theorem valField_packCommand (op : BitVec 4) (idx : BitVec 16) (val : Byte) :
    valField (packCommand op idx val) = val := by
  ext k hk
  simp only [valField, packCommand, BitVec.getElem_extractLsb', BitVec.getLsbD_append]
  rw [if_pos (by omega), show 0 + k = k by omega, BitVec.getLsbD_eq_getElem hk]

/-- A word is its four fields (rule R61). -/
theorem word_eq_fields (w : CommandWord) : w = opField w ++ rsvField w ++ idxField w ++ valField w := by
  apply BitVec.eq_of_getLsbD_eq
  intro k hk
  simp only [opField, rsvField, idxField, valField, BitVec.getLsbD_append, BitVec.getLsbD_extractLsb']
  split
  · simp_all
  · split
    · rw [show 8 + (k - 8) = k by omega]; simp_all
    · split
      · rw [show 24 + (k - 8 - 16) = k by omega]; simp_all
      · rw [show 28 + (k - 8 - 16 - 4) = k by omega]; simp; omega

/-- A legal word is the packed word of its fields. -/
theorem word_eq_packCommand {w : CommandWord} (h : rsvField w = 0#4) :
    w = packCommand (opField w) (idxField w) (valField w) := by
  conv_lhs => rw [word_eq_fields w, h]
  rfl

/-- An index that fits the field is not changed by it (rule R63). -/
theorem ofNat_index_toNat {n : Nat} (h : fitsIndex n = true) : (BitVec.ofNat 16 n).toNat = n := by
  have h' : n < 2 ^ 16 := of_decide_eq_true h
  simpa using h'

end Sys2Proof

namespace Sys2Proof.Machine

@[simp] theorem rspFlt_packResponse (flt wrn : Bool) (c : BitVec 2) (d : Byte) :
    rspFlt (packResponse flt wrn c d) = flt := by
  simp only [rspFlt, packResponse, BitVec.getLsbD_append]
  simp

@[simp] theorem rspWrn_packResponse (flt wrn : Bool) (c : BitVec 2) (d : Byte) :
    rspWrn (packResponse flt wrn c d) = wrn := by
  simp only [rspWrn, packResponse, BitVec.getLsbD_append]
  simp

@[simp] theorem rspZero_packResponse (flt wrn : Bool) (c : BitVec 2) (d : Byte) :
    rspZero (packResponse flt wrn c d) = 0#4 := by
  ext k hk
  simp only [rspZero, packResponse, BitVec.getElem_extractLsb', BitVec.getLsbD_append]
  rw [if_neg (by omega), if_neg (by omega), if_pos (by omega)]
  simp

@[simp] theorem rspCause_packResponse (flt wrn : Bool) (c : BitVec 2) (d : Byte) :
    rspCause (packResponse flt wrn c d) = c := by
  ext k hk
  simp only [rspCause, packResponse, BitVec.getElem_extractLsb', BitVec.getLsbD_append]
  rw [if_neg (by omega), if_pos (by omega), show 8 + k - 8 = k by omega, BitVec.getLsbD_eq_getElem hk]

@[simp] theorem rspData_packResponse (flt wrn : Bool) (c : BitVec 2) (d : Byte) :
    rspData (packResponse flt wrn c d) = d := by
  ext k hk
  simp only [rspData, packResponse, BitVec.getElem_extractLsb', BitVec.getLsbD_append]
  rw [if_pos (by omega), show 0 + k = k by omega, BitVec.getLsbD_eq_getElem hk]

/-- The bytes of a completed response (rule R68). -/
@[simp] theorem rspData_completedResponse (wrn : Bool) (d : Byte) : rspData (completedResponse wrn d) = d :=
  rspData_packResponse false wrn 0#2 d

@[simp] theorem rspFlt_completedResponse (wrn : Bool) (d : Byte) : rspFlt (completedResponse wrn d) = false :=
  rspFlt_packResponse false wrn 0#2 d

@[simp] theorem rspWrn_completedResponse (wrn : Bool) (d : Byte) : rspWrn (completedResponse wrn d) = wrn :=
  rspWrn_packResponse false wrn 0#2 d

@[simp] theorem rspFlt_faultResponse (c : Cause) : rspFlt (faultResponse c) = true :=
  rspFlt_packResponse true false (causeCode c) 0#8

@[simp] theorem rspWrn_faultResponse (c : Cause) : rspWrn (faultResponse c) = false :=
  rspWrn_packResponse true false (causeCode c) 0#8

@[simp] theorem rspCause_faultResponse (c : Cause) : rspCause (faultResponse c) = causeCode c :=
  rspCause_packResponse true false (causeCode c) 0#8

/-- A cause code is never 0 (rule R141). -/
@[simp] theorem causeCode_ne_zero (c : Cause) : causeCode c ≠ 0#2 := by cases c <;> decide

/-- The three fault responses: `0x8000 + c * 0x100` (rule R144). -/
theorem faultResponse_eq (c : Cause) :
    faultResponse c = BitVec.ofNat 16 (0x8000 + (causeCode c).toNat * 0x100) := by cases c <;> decide

end Sys2Proof.Machine
end

