-- ==== Sys2Proof/Laws/Memory.lean ====
section
/-! SUPPORT. The laws of the storage list: read after write, the canonical form kept, and equal readings make equal lists. -/

namespace Sys2Proof.Machine

@[simp] theorem unitAt_nil (u : Nat) : Memory.unitAt [] u = unlistedUnit := rfl

/-- A bound below which nothing is listed can be lowered. -/
theorem wfAbove_of_le {m : Memory} {u v : Nat} (h : v ≤ u) (hw : Memory.wfAbove u m = true) : Memory.wfAbove v m = true := by
  cases m with
  | nil => rfl
  | cons c rest =>
    obtain ⟨a, b⟩ := c
    simp only [Memory.wfAbove, Bool.and_eq_true, decide_eq_true_eq] at hw ⊢
    exact ⟨⟨by omega, hw.1.2⟩, hw.2⟩

/-- A list in canonical form above a bound is in canonical form. -/
theorem wf_of_wfAbove {m : Memory} {u : Nat} (hw : Memory.wfAbove u m = true) : m.wf = true := by
  cases m with
  | nil => rfl
  | cons c rest =>
    obtain ⟨a, b⟩ := c
    simp only [Memory.wfAbove, Memory.wf, Bool.and_eq_true, decide_eq_true_eq] at hw ⊢
    exact ⟨hw.1.2, hw.2⟩

/-- Units up to the bound are not listed, so they read 0. -/
theorem unitAt_of_wfAbove {m : Memory} {u v : Nat} (hw : Memory.wfAbove u m = true) (h : v ≤ u) : m.unitAt v = 0#8 := by
  cases m with
  | nil => rfl
  | cons c rest =>
    obtain ⟨a, b⟩ := c
    simp only [Memory.wfAbove, Bool.and_eq_true, decide_eq_true_eq] at hw
    simp only [Memory.unitAt, if_pos (show v < a by omega)]
    rfl

/-- Putting a unit in front keeps the canonical form. -/
theorem wfAbove_list {m : Memory} {u k : Nat} {v : Byte} (hk : k < u) (hw : Memory.wfAbove u m = true) :
    Memory.wfAbove k (Memory.list u v m) = true := by
  unfold Memory.list
  split
  · exact wfAbove_of_le (Nat.le_of_lt hk) hw
  · simp_all [Memory.wfAbove]

/-- Reading the unit put in front gives it. -/
theorem unitAt_list_same {m : Memory} {u : Nat} {v : Byte} (hw : Memory.wfAbove u m = true) :
    (Memory.list u v m).unitAt u = v := by
  unfold Memory.list
  split
  · rename_i h
    rw [unitAt_of_wfAbove hw (Nat.le_refl u), h]
    rfl
  · simp [Memory.unitAt]

/-- Putting a unit in front changes no other unit. -/
theorem unitAt_list_other {m : Memory} {u k : Nat} {v : Byte} (hw : Memory.wfAbove u m = true) (hk : k ≠ u) :
    (Memory.list u v m).unitAt k = m.unitAt k := by
  unfold Memory.list
  split
  · rfl
  · simp only [Memory.unitAt, if_neg hk]
    split
    · rw [unitAt_of_wfAbove hw (by omega)]
      rfl
    · rfl

/-- Writing keeps the canonical form above a bound. -/
theorem wfAbove_setUnit {m : Memory} {u k : Nat} (v : Byte) (hk : k < u) (hw : Memory.wfAbove k m = true) :
    Memory.wfAbove k (m.setUnit u v) = true := by
  induction m generalizing k with
  | nil => exact wfAbove_list hk rfl
  | cons c rest ih =>
    obtain ⟨a, b⟩ := c
    simp only [Memory.wfAbove, Bool.and_eq_true, decide_eq_true_eq] at hw
    obtain ⟨⟨hka, hb⟩, hr⟩ := hw
    simp only [Memory.setUnit]
    split
    · exact wfAbove_list hk (by simp [Memory.wfAbove, *])
    · split
      · rename_i h
        subst h
        exact wfAbove_list hk hr
      · simp [Memory.wfAbove, hka, hb, ih (show a < u by omega) hr]

/-- Every write keeps the canonical form. -/
theorem wf_setUnit {m : Memory} (u : Nat) (v : Byte) (hw : m.wf = true) : (m.setUnit u v).wf = true := by
  cases m with
  | nil =>
    simp only [Memory.setUnit, Memory.list]
    split <;> simp_all [Memory.wf, Memory.wfAbove]
  | cons c rest =>
    obtain ⟨a, b⟩ := c
    simp only [Memory.wf, Bool.and_eq_true, decide_eq_true_eq] at hw
    obtain ⟨hb, hr⟩ := hw
    simp only [Memory.setUnit]
    split
    · unfold Memory.list
      split <;> simp_all [Memory.wf, Memory.wfAbove]
    · split
      · rename_i h
        subst h
        unfold Memory.list
        split
        · exact wf_of_wfAbove hr
        · simp_all [Memory.wf]
      · simp [Memory.wf, hb, wfAbove_setUnit v (show a < u by omega) hr]

/-- Reading the unit just written gives what was written, above a bound. -/
theorem unitAt_setUnit_same_above {m : Memory} {k u : Nat} (v : Byte) (hk : k < u) (hw : Memory.wfAbove k m = true) :
    (m.setUnit u v).unitAt u = v := by
  induction m generalizing k with
  | nil => exact unitAt_list_same rfl
  | cons c rest ih =>
    obtain ⟨a, b⟩ := c
    simp only [Memory.wfAbove, Bool.and_eq_true, decide_eq_true_eq] at hw
    obtain ⟨⟨hka, hb⟩, hr⟩ := hw
    simp only [Memory.setUnit]
    split
    · exact unitAt_list_same (by simp [Memory.wfAbove, *])
    · split
      · rename_i h
        subst h
        exact unitAt_list_same hr
      · simp only [Memory.unitAt, *, if_false]
        exact ih (show a < u by omega) hr

/-- Read after write, same unit (rule R16). -/
theorem unitAt_setUnit_same {m : Memory} (u : Nat) (v : Byte) (hw : m.wf = true) : (m.setUnit u v).unitAt u = v := by
  cases m with
  | nil => exact unitAt_list_same rfl
  | cons c rest =>
    obtain ⟨a, b⟩ := c
    simp only [Memory.wf, Bool.and_eq_true, decide_eq_true_eq] at hw
    simp only [Memory.setUnit]
    split
    · exact unitAt_list_same (by simp_all [Memory.wfAbove])
    · split
      · rename_i h
        subst h
        exact unitAt_list_same hw.2
      · simp only [Memory.unitAt, *, if_false]
        exact unitAt_setUnit_same_above v (show a < u by omega) hw.2

/-- Writing changes no other unit, above a bound. -/
theorem unitAt_setUnit_other_above {m : Memory} {k u x : Nat} (v : Byte) (hk : k < u) (hw : Memory.wfAbove k m = true)
    (hx : x ≠ u) : (m.setUnit u v).unitAt x = m.unitAt x := by
  induction m generalizing k with
  | nil => exact unitAt_list_other rfl hx
  | cons c rest ih =>
    obtain ⟨a, b⟩ := c
    simp only [Memory.wfAbove, Bool.and_eq_true, decide_eq_true_eq] at hw
    obtain ⟨⟨hka, hb⟩, hr⟩ := hw
    simp only [Memory.setUnit]
    split
    · exact unitAt_list_other (by simp [Memory.wfAbove, *]) hx
    · split
      · rename_i h
        subst h
        rw [unitAt_list_other hr hx]
        simp only [Memory.unitAt, if_neg hx]
        split
        · rw [unitAt_of_wfAbove hr (by omega)]
          rfl
        · rfl
      · simp only [Memory.unitAt]
        rw [ih (show a < u by omega) hr]

/-- Read after write, another unit (rule R16). -/
theorem unitAt_setUnit_other {m : Memory} {u x : Nat} (v : Byte) (hw : m.wf = true) (hx : x ≠ u) :
    (m.setUnit u v).unitAt x = m.unitAt x := by
  cases m with
  | nil => exact unitAt_list_other rfl hx
  | cons c rest =>
    obtain ⟨a, b⟩ := c
    simp only [Memory.wf, Bool.and_eq_true, decide_eq_true_eq] at hw
    obtain ⟨hb, hr⟩ := hw
    simp only [Memory.setUnit]
    split
    · exact unitAt_list_other (by simp [Memory.wfAbove, *]) hx
    · split
      · rename_i h
        subst h
        rw [unitAt_list_other hr hx]
        simp only [Memory.unitAt, if_neg hx]
        split
        · rw [unitAt_of_wfAbove hr (by omega)]
          rfl
        · rfl
      · simp only [Memory.unitAt]
        rw [unitAt_setUnit_other_above v (show a < u by omega) hr hx]

/-- Read after write, any unit. -/
theorem unitAt_setUnit {m : Memory} (u x : Nat) (v : Byte) (hw : m.wf = true) :
    (m.setUnit u v).unitAt x = if x = u then v else m.unitAt x := by
  split
  · rename_i h
    subst h
    exact unitAt_setUnit_same _ _ hw
  · rename_i h
    exact unitAt_setUnit_other v hw h

@[simp] theorem within_nil (n : Nat) : Memory.within n [] = true := rfl

@[simp] theorem within_cons (n a : Nat) (b : Byte) (rest : Memory) :
    Memory.within n ((a, b) :: rest) = (decide (a < n) && Memory.within n rest) := rfl

/-- Putting a unit inside a bound in front keeps the list inside it. -/
theorem within_list {m : Memory} {n u : Nat} (v : Byte) (hu : u < n) (hm : m.within n = true) :
    (Memory.list u v m).within n = true := by
  unfold Memory.list
  split <;> simp [hu, hm]

/-- Every write inside a bound keeps the list inside it. -/
theorem within_setUnit {m : Memory} {n u : Nat} (v : Byte) (hu : u < n) (hm : m.within n = true) :
    (m.setUnit u v).within n = true := by
  induction m with
  | nil => exact within_list v hu rfl
  | cons c rest ih =>
    obtain ⟨a, b⟩ := c
    have hcons := hm
    simp only [within_cons, Bool.and_eq_true, decide_eq_true_eq] at hm
    simp only [Memory.setUnit]
    split
    · exact within_list v hu hcons
    · split
      · exact within_list v hu hm.2
      · simp [hm.1, ih hm.2]

/-- Two lists in canonical form above one bound that read alike are one list. -/
theorem eq_of_unitAt_above {m n : Memory} {k : Nat} (hm : Memory.wfAbove k m = true) (hn : Memory.wfAbove k n = true)
    (h : ∀ u, m.unitAt u = n.unitAt u) : m = n := by
  induction m generalizing n k with
  | nil =>
    cases n with
    | nil => rfl
    | cons c rest =>
      obtain ⟨a, b⟩ := c
      have ha : unlistedUnit = b := by simpa [Memory.unitAt] using h a
      simp [Memory.wfAbove, ← ha] at hn
  | cons c rest ih =>
    obtain ⟨a, b⟩ := c
    cases n with
    | nil =>
      have ha : b = unlistedUnit := by simpa [Memory.unitAt] using h a
      simp [Memory.wfAbove, ha] at hm
    | cons c' rest' =>
      obtain ⟨a', b'⟩ := c'
      simp only [Memory.wfAbove, Bool.and_eq_true, decide_eq_true_eq] at hm hn
      have haa : a = a' := by
        rcases Nat.lt_trichotomy a a' with hlt | heq | hgt
        · have := h a
          simp only [Memory.unitAt, lt_irrefl, if_false, if_true, if_pos hlt] at this
          exact absurd this hm.1.2
        · exact heq
        · have := h a'
          simp only [Memory.unitAt, lt_irrefl, if_false, if_true, if_pos hgt] at this
          exact absurd this.symm hn.1.2
      subst haa
      have hbb : b = b' := by simpa [Memory.unitAt] using h a
      subst hbb
      have hr : rest = rest' := by
        refine ih hm.2 hn.2 fun u => ?_
        rcases Nat.lt_or_ge a u with hlt | hge
        · have := h u
          simpa [Memory.unitAt, Nat.not_lt.mpr (Nat.le_of_lt hlt), Nat.ne_of_gt hlt] using this
        · rw [unitAt_of_wfAbove hm.2 hge, unitAt_of_wfAbove hn.2 hge]
      rw [hr]

/-- Two lists in canonical form that read alike are one list: equal storages are equal data. -/
theorem eq_of_unitAt {m n : Memory} (hm : m.wf = true) (hn : n.wf = true) (h : ∀ u, m.unitAt u = n.unitAt u) : m = n := by
  rcases m with - | ⟨⟨a, b⟩, rest⟩ <;> rcases n with - | ⟨⟨a', b'⟩, rest'⟩
  · rfl
  · have ha : unlistedUnit = b' := by simpa [Memory.unitAt] using h a'
    simp [Memory.wf, ← ha] at hn
  · have ha : b = unlistedUnit := by simpa [Memory.unitAt] using h a
    simp [Memory.wf, ha] at hm
  · simp only [Memory.wf, Bool.and_eq_true, decide_eq_true_eq] at hm hn
    have haa : a = a' := by
      rcases Nat.lt_trichotomy a a' with hlt | heq | hgt
      · have := h a
        simp only [Memory.unitAt, lt_irrefl, if_false, if_true, if_pos hlt] at this
        exact absurd this hm.1
      · exact heq
      · have := h a'
        simp only [Memory.unitAt, lt_irrefl, if_false, if_true, if_pos hgt] at this
        exact absurd this.symm hn.1
    subst haa
    have hbb : b = b' := by simpa [Memory.unitAt] using h a
    subst hbb
    have hr : rest = rest' := by
      refine eq_of_unitAt_above hm.2 hn.2 fun u => ?_
      rcases Nat.lt_or_ge a u with hlt | hge
      · have := h u
        simpa [Memory.unitAt, Nat.not_lt.mpr (Nat.le_of_lt hlt), Nat.ne_of_gt hlt] using this
      · rw [unitAt_of_wfAbove hm.2 hge, unitAt_of_wfAbove hn.2 hge]
    rw [hr]

/-- Units outside a bound are not listed, so they read 0. -/
theorem unitAt_of_within {m : Memory} {n u : Nat} (hm : m.within n = true) (hu : n ≤ u) : m.unitAt u = 0#8 := by
  induction m with
  | nil => rfl
  | cons c rest ih =>
    obtain ⟨a, b⟩ := c
    simp only [within_cons, Bool.and_eq_true, decide_eq_true_eq] at hm
    simp only [Memory.unitAt]
    split
    · rfl
    · split
      · omega
      · exact ih hm.2

/-- The storage of a sequence of bytes is in canonical form. -/
theorem wfAbove_ofBytes (bs : List Byte) {k a : Nat} (hk : k < a) : Memory.wfAbove k (Memory.ofBytes a bs) = true := by
  induction bs generalizing k a with
  | nil => rfl
  | cons b bs ih => exact wfAbove_list hk (ih (Nat.lt_succ_self a))

/-- The storage of a sequence of bytes reads as the sequence. -/
theorem unitAt_ofBytes (bs : List Byte) (a x : Nat) :
    (Memory.ofBytes a bs).unitAt (a + x) = (bs[x]?).getD 0#8 := by
  induction bs generalizing a x with
  | nil => rfl
  | cons b bs ih =>
    have hw : Memory.wfAbove a (Memory.ofBytes (a + 1) bs) = true := wfAbove_ofBytes bs (Nat.lt_succ_self a)
    cases x with
    | zero => simpa [Memory.ofBytes] using unitAt_list_same hw
    | succ x =>
      rw [Memory.ofBytes, unitAt_list_other hw (by omega), show a + (x + 1) = (a + 1) + x by omega, ih]
      rfl

end Sys2Proof.Machine
end

