-- ==== Sys2Proof/Laws/State.lean ====
section
/-! SUPPORT. What each update of the state does to each field: one lemma per field per update, true by rfl. -/

namespace Sys2Proof.Machine

/-! ### respond -/

@[simp] theorem respond_cfg (wrn : Bool) (d : Byte) (s : State) : (respond wrn d s).cfg = s.cfg := rfl
@[simp] theorem respond_storage (wrn : Bool) (d : Byte) (s : State) : (respond wrn d s).storage = s.storage := rfl
@[simp] theorem respond_fault (wrn : Bool) (d : Byte) (s : State) : (respond wrn d s).fault = s.fault := rfl
@[simp] theorem respond_fcause (wrn : Bool) (d : Byte) (s : State) : (respond wrn d s).fcause = s.fcause := rfl
@[simp] theorem respond_fcmd (wrn : Bool) (d : Byte) (s : State) : (respond wrn d s).fcmd = s.fcmd := rfl
@[simp] theorem respond_rsp (wrn : Bool) (d : Byte) (s : State) : (respond wrn d s).rsp = some (completedResponse wrn d) := rfl
@[simp] theorem respond_warn (wrn : Bool) (d : Byte) (s : State) : (respond wrn d s).warn = wrn := rfl
@[simp] theorem respond_diag (wrn : Bool) (d : Byte) (s : State) : (respond wrn d s).diag = s.diag := rfl
@[simp] theorem respond_inputs (wrn : Bool) (d : Byte) (s : State) : (respond wrn d s).inputs = s.inputs := rfl

/-! ### recordTruncation -/

@[simp] theorem recordTruncation_cfg (index : Nat) (value : Byte) (s : State) : (recordTruncation index value s).cfg = s.cfg := rfl
@[simp] theorem recordTruncation_storage (index : Nat) (value : Byte) (s : State) : (recordTruncation index value s).storage = s.storage := rfl
@[simp] theorem recordTruncation_fault (index : Nat) (value : Byte) (s : State) : (recordTruncation index value s).fault = s.fault := rfl
@[simp] theorem recordTruncation_fcause (index : Nat) (value : Byte) (s : State) : (recordTruncation index value s).fcause = s.fcause := rfl
@[simp] theorem recordTruncation_fcmd (index : Nat) (value : Byte) (s : State) : (recordTruncation index value s).fcmd = s.fcmd := rfl
@[simp] theorem recordTruncation_rsp (index : Nat) (value : Byte) (s : State) : (recordTruncation index value s).rsp = s.rsp := rfl
@[simp] theorem recordTruncation_warn (index : Nat) (value : Byte) (s : State) : (recordTruncation index value s).warn = s.warn := rfl
@[simp] theorem recordTruncation_diag (index : Nat) (value : Byte) (s : State) : (recordTruncation index value s).diag = s.diag ++ [(index, value)] := rfl
@[simp] theorem recordTruncation_inputs (index : Nat) (value : Byte) (s : State) : (recordTruncation index value s).inputs = s.inputs := rfl

/-! ### raiseFault -/

@[simp] theorem raiseFault_cfg (c : Cause) (s : State) : (raiseFault c s).cfg = s.cfg := rfl
@[simp] theorem raiseFault_storage (c : Cause) (s : State) : (raiseFault c s).storage = s.storage := rfl
@[simp] theorem raiseFault_fault (c : Cause) (s : State) : (raiseFault c s).fault = true := rfl
@[simp] theorem raiseFault_fcause (c : Cause) (s : State) : (raiseFault c s).fcause = causeCode c := rfl
@[simp] theorem raiseFault_fcmd (c : Cause) (s : State) : (raiseFault c s).fcmd = s.pins.cmd := rfl
@[simp] theorem raiseFault_rsp (c : Cause) (s : State) : (raiseFault c s).rsp = some (faultResponse c) := rfl
@[simp] theorem raiseFault_warn (c : Cause) (s : State) : (raiseFault c s).warn = false := rfl
@[simp] theorem raiseFault_diag (c : Cause) (s : State) : (raiseFault c s).diag = s.diag := rfl
@[simp] theorem raiseFault_inputs (c : Cause) (s : State) : (raiseFault c s).inputs = s.inputs := rfl

/-! ### applyReset -/

@[simp] theorem applyReset_cfg (s : State) : (applyReset s).cfg = s.cfg := rfl
@[simp] theorem applyReset_storage (s : State) : (applyReset s).storage = [] := rfl
@[simp] theorem applyReset_fault (s : State) : (applyReset s).fault = false := rfl
@[simp] theorem applyReset_fcause (s : State) : (applyReset s).fcause = 0#2 := rfl
@[simp] theorem applyReset_fcmd (s : State) : (applyReset s).fcmd = 0#32 := rfl
@[simp] theorem applyReset_rsp (s : State) : (applyReset s).rsp = none := rfl
@[simp] theorem applyReset_warn (s : State) : (applyReset s).warn = false := rfl
@[simp] theorem applyReset_diag (s : State) : (applyReset s).diag = s.diag := rfl
@[simp] theorem applyReset_inputs (s : State) : (applyReset s).inputs = s.inputs := rfl

/-! ### waitForCommand -/

@[simp] theorem waitForCommand_cfg (s : State) : (waitForCommand s).cfg = s.cfg := rfl
@[simp] theorem waitForCommand_storage (s : State) : (waitForCommand s).storage = s.storage := rfl
@[simp] theorem waitForCommand_fault (s : State) : (waitForCommand s).fault = s.fault := rfl
@[simp] theorem waitForCommand_fcause (s : State) : (waitForCommand s).fcause = s.fcause := rfl
@[simp] theorem waitForCommand_fcmd (s : State) : (waitForCommand s).fcmd = s.fcmd := rfl
@[simp] theorem waitForCommand_rsp (s : State) : (waitForCommand s).rsp = none := rfl
@[simp] theorem waitForCommand_warn (s : State) : (waitForCommand s).warn = false := rfl
@[simp] theorem waitForCommand_diag (s : State) : (waitForCommand s).diag = s.diag := rfl
@[simp] theorem waitForCommand_inputs (s : State) : (waitForCommand s).inputs = s.inputs := rfl

/-! ### advanceInputs -/

@[simp] theorem advanceInputs_cfg (s : State) : (advanceInputs s).cfg = s.cfg := rfl
@[simp] theorem advanceInputs_storage (s : State) : (advanceInputs s).storage = s.storage := rfl
@[simp] theorem advanceInputs_fault (s : State) : (advanceInputs s).fault = s.fault := rfl
@[simp] theorem advanceInputs_fcause (s : State) : (advanceInputs s).fcause = s.fcause := rfl
@[simp] theorem advanceInputs_fcmd (s : State) : (advanceInputs s).fcmd = s.fcmd := rfl
@[simp] theorem advanceInputs_rsp (s : State) : (advanceInputs s).rsp = s.rsp := rfl
@[simp] theorem advanceInputs_warn (s : State) : (advanceInputs s).warn = s.warn := rfl
@[simp] theorem advanceInputs_diag (s : State) : (advanceInputs s).diag = s.diag := rfl
@[simp] theorem advanceInputs_inputs (s : State) : (advanceInputs s).inputs = s.inputs.tail := rfl

/-! ### offer -/

@[simp] theorem offer_cfg (s : State) (w : CommandWord) : (s.offer w).cfg = s.cfg := rfl
@[simp] theorem offer_storage (s : State) (w : CommandWord) : (s.offer w).storage = s.storage := rfl
@[simp] theorem offer_fault (s : State) (w : CommandWord) : (s.offer w).fault = s.fault := rfl
@[simp] theorem offer_fcause (s : State) (w : CommandWord) : (s.offer w).fcause = s.fcause := rfl
@[simp] theorem offer_fcmd (s : State) (w : CommandWord) : (s.offer w).fcmd = s.fcmd := rfl
@[simp] theorem offer_rsp (s : State) (w : CommandWord) : (s.offer w).rsp = s.rsp := rfl
@[simp] theorem offer_warn (s : State) (w : CommandWord) : (s.offer w).warn = s.warn := rfl
@[simp] theorem offer_diag (s : State) (w : CommandWord) : (s.offer w).diag = s.diag := rfl
@[simp] theorem offer_inputs (s : State) (w : CommandWord) : (s.offer w).inputs = offerPins w :: s.inputs := rfl

/-! ### assertReset -/

@[simp] theorem assertReset_cfg (s : State) : (s.assertReset).cfg = s.cfg := rfl
@[simp] theorem assertReset_storage (s : State) : (s.assertReset).storage = s.storage := rfl
@[simp] theorem assertReset_fault (s : State) : (s.assertReset).fault = s.fault := rfl
@[simp] theorem assertReset_fcause (s : State) : (s.assertReset).fcause = s.fcause := rfl
@[simp] theorem assertReset_fcmd (s : State) : (s.assertReset).fcmd = s.fcmd := rfl
@[simp] theorem assertReset_rsp (s : State) : (s.assertReset).rsp = s.rsp := rfl
@[simp] theorem assertReset_warn (s : State) : (s.assertReset).warn = s.warn := rfl
@[simp] theorem assertReset_diag (s : State) : (s.assertReset).diag = s.diag := rfl
@[simp] theorem assertReset_inputs (s : State) : (s.assertReset).inputs = resetPins :: s.inputs := rfl

/-! ### The state after reset -/

@[simp] theorem resetOf_cfg (cfg : Config) : (State.resetOf cfg).cfg = cfg := rfl
@[simp] theorem resetOf_storage (cfg : Config) : (State.resetOf cfg).storage = [] := rfl
@[simp] theorem resetOf_fault (cfg : Config) : (State.resetOf cfg).fault = false := rfl
@[simp] theorem resetOf_fcause (cfg : Config) : (State.resetOf cfg).fcause = 0#2 := rfl
@[simp] theorem resetOf_fcmd (cfg : Config) : (State.resetOf cfg).fcmd = 0#32 := rfl
@[simp] theorem resetOf_rsp (cfg : Config) : (State.resetOf cfg).rsp = none := rfl
@[simp] theorem resetOf_warn (cfg : Config) : (State.resetOf cfg).warn = false := rfl
@[simp] theorem resetOf_diag (cfg : Config) : (State.resetOf cfg).diag = [] := rfl
@[simp] theorem resetOf_inputs (cfg : Config) : (State.resetOf cfg).inputs = [] := rfl

/-! ### The input pins -/

@[simp] theorem offer_pins (s : State) (w : CommandWord) : (s.offer w).pins = offerPins w := rfl
@[simp] theorem assertReset_pins (s : State) : s.assertReset.pins = resetPins := rfl
@[simp] theorem resetOf_pins (cfg : Config) : (State.resetOf cfg).pins = quietPins := rfl
@[simp] theorem withFetchWord_eq_offer (s : State) (nbits w : Nat) :
    s.withFetchWord nbits w = s.offer (BitVec.ofNat 32 (w % 2 ^ nbits)) := rfl

/-- The input pins depend on the inputs alone. -/
theorem pins_congr {s t : State} (h : s.inputs = t.inputs) : s.pins = t.pins := by
  simp only [State.pins, h]

@[simp] theorem respond_pins (wrn : Bool) (d : Byte) (s : State) : (respond wrn d s).pins = s.pins := rfl
@[simp] theorem recordTruncation_pins (index : Nat) (value : Byte) (s : State) :
    (recordTruncation index value s).pins = s.pins := rfl
@[simp] theorem raiseFault_pins (c : Cause) (s : State) : (raiseFault c s).pins = s.pins := rfl
@[simp] theorem applyReset_pins (s : State) : (applyReset s).pins = s.pins := rfl
@[simp] theorem waitForCommand_pins (s : State) : (waitForCommand s).pins = s.pins := rfl

end Sys2Proof.Machine
end

