-- ==== Sys2Proof/Laws/Ops.lean ====
section
/-! SUPPORT. What each shared operation can do: one lemma per operation, cited instead of unfolding it. -/

namespace Sys2Proof.Machine

/-! ### The constants -/

/-- `1 <= BITS <= 8` (rule R5). -/
theorem bits_range (cfg : Config) : 1 ≤ cfg.bits ∧ cfg.bits ≤ 8 := by
  rcases cfg with ⟨w, c⟩
  cases w <;> simp [Config.bits, BitWidth.toNat]

/-- `LEN <= 65536` (rule R6). -/
theorem len_le (cfg : Config) : cfg.len ≤ 65536 := Nat.le_of_lt_succ cfg.count.isLt

/-! ### Storage access -/

theorem memRead_of_lt {cfg : Config} {u : Nat} (m : Memory) (h : u < cfg.nbytes) :
    memRead cfg m u = some (m.unitAt u) := if_pos h

theorem memRead_of_ge {cfg : Config} {u : Nat} (m : Memory) (h : cfg.nbytes ≤ u) : memRead cfg m u = none :=
  if_neg (Nat.not_lt.mpr h)

theorem memWrite_of_lt {cfg : Config} {u : Nat} (m : Memory) (v : Byte) (h : u < cfg.nbytes) :
    memWrite cfg m u v = some (m.setUnit u v) := if_pos h

/-- A write that is defined names a unit of the storage, and writes it. -/
theorem memWrite_eq_some {cfg : Config} {m m' : Memory} {u : Nat} {v : Byte} :
    memWrite cfg m u v = some m' ↔ u < cfg.nbytes ∧ m' = m.setUnit u v := by
  unfold memWrite
  split <;> simp_all [eq_comm]

/-- Changing one unit (rule R46). -/
theorem updateOne_eq (cfg : Config) (m : Memory) (u : Nat) (f : Byte → Byte) :
    updateOne cfg m u f = if u < cfg.nbytes then some (m.setUnit u (f (m.unitAt u))) else none := by
  unfold updateOne memRead memWrite
  split <;> simp_all

/-- Changing two adjacent units (rules R46, R47). -/
theorem updateTwo_eq (cfg : Config) (m : Memory) (u : Nat) (f g : Byte → Byte) :
    updateTwo cfg m u f g =
      if u + 1 < cfg.nbytes then some ((m.setUnit u (f (m.unitAt u))).setUnit (u + 1) (g (m.unitAt (u + 1)))) else none := by
  unfold updateTwo memRead memWrite
  by_cases h : u + 1 < cfg.nbytes
  · simp [h, show u < cfg.nbytes by omega]
  · by_cases hu : u < cfg.nbytes <;> simp [h, hu]

/-! ### Reading, writing and clearing an element -/

/-- Reading an element that lies in one unit (rule R90). -/
theorem readElement_single {cfg : Config} {i : Nat} (m : Memory) (hs : (resolve cfg i).spans = false)
    (hu : (resolve cfg i).unit < cfg.nbytes) :
    readElement cfg m i = some (startFragment cfg (resolve cfg i).offset (m.unitAt (resolve cfg i).unit)) := by
  simp [readElement, memRead_of_lt m hu, hs]

/-- Reading an element that spans two units (rule R90). -/
theorem readElement_spanning {cfg : Config} {i : Nat} (m : Memory) (hs : (resolve cfg i).spans = true)
    (hu : (resolve cfg i).unit + 1 < cfg.nbytes) :
    readElement cfg m i =
      some (startFragment cfg (resolve cfg i).offset (m.unitAt (resolve cfg i).unit) |||
        nextFragment cfg (resolve cfg i).offset (m.unitAt ((resolve cfg i).unit + 1))) := by
  simp [readElement, memRead_of_lt m hu, memRead_of_lt m (show (resolve cfg i).unit < cfg.nbytes by omega), hs]

/-- Writing an element that lies in one unit (rule R100). -/
theorem writeElement_single {cfg : Config} {i : Nat} (m : Memory) (v : Byte) (hs : (resolve cfg i).spans = false)
    (hu : (resolve cfg i).unit < cfg.nbytes) :
    writeElement cfg m i v = some (m.setUnit (resolve cfg i).unit
      (clearWhole cfg (resolve cfg i).offset (m.unitAt (resolve cfg i).unit) |||
        shl8 v (8 - (resolve cfg i).offset - cfg.bits))) := by
  simp [writeElement, updateOne_eq, hs, hu]

/-- Writing an element that spans two units (rule R100). -/
theorem writeElement_spanning {cfg : Config} {i : Nat} (m : Memory) (v : Byte) (hs : (resolve cfg i).spans = true)
    (hu : (resolve cfg i).unit + 1 < cfg.nbytes) :
    writeElement cfg m i v = some ((m.setUnit (resolve cfg i).unit
      (clearTail (tailWidth (resolve cfg i)) (m.unitAt (resolve cfg i).unit) ||| shr8 v (headWidth cfg (resolve cfg i)))).setUnit
        ((resolve cfg i).unit + 1)
      (clearHead (headWidth cfg (resolve cfg i)) (m.unitAt ((resolve cfg i).unit + 1)) |||
        shl8 v (8 - headWidth cfg (resolve cfg i)))) := by
  simp [writeElement, updateTwo_eq, hs, hu]

/-- A storage change that keeps the canonical form and the bounds. -/
def KeepsStorage (cfg : Config) (m m' : Memory) : Prop :=
  (m.wf = true → m'.wf = true) ∧ (m.within cfg.nbytes = true → m'.within cfg.nbytes = true)

theorem keepsStorage_setUnit {cfg : Config} {u : Nat} (m : Memory) (v : Byte) (hu : u < cfg.nbytes) :
    KeepsStorage cfg m (m.setUnit u v) :=
  ⟨wf_setUnit u v, within_setUnit v hu⟩

theorem keepsStorage_trans {cfg : Config} {m m' m'' : Memory} (h : KeepsStorage cfg m m') (h' : KeepsStorage cfg m' m'') :
    KeepsStorage cfg m m'' :=
  ⟨fun hw => h'.1 (h.1 hw), fun hw => h'.2 (h.2 hw)⟩

/-- A defined unit write keeps the canonical form and the bounds. -/
theorem memWrite_keeps {cfg : Config} {m m' : Memory} {u : Nat} {v : Byte} (h : memWrite cfg m u v = some m') :
    KeepsStorage cfg m m' := by
  obtain ⟨hu, rfl⟩ := memWrite_eq_some.mp h
  exact keepsStorage_setUnit m v hu

theorem updateOne_keeps {cfg : Config} {m m' : Memory} {u : Nat} {f : Byte → Byte} (h : updateOne cfg m u f = some m') :
    KeepsStorage cfg m m' := by
  rw [updateOne_eq] at h
  split at h
  · cases h
    exact keepsStorage_setUnit m _ ‹_›
  · cases h

theorem updateTwo_keeps {cfg : Config} {m m' : Memory} {u : Nat} {f g : Byte → Byte} (h : updateTwo cfg m u f g = some m') :
    KeepsStorage cfg m m' := by
  rw [updateTwo_eq] at h
  split at h
  · cases h
    exact keepsStorage_trans (keepsStorage_setUnit m _ (by omega)) (keepsStorage_setUnit _ _ ‹_›)
  · cases h

/-- Writing an element keeps the canonical form and the bounds. -/
theorem writeElement_keeps {cfg : Config} {m m' : Memory} {i : Nat} {v : Byte} (h : writeElement cfg m i v = some m') :
    KeepsStorage cfg m m' := by
  simp only [writeElement] at h
  split at h
  · exact updateTwo_keeps h
  · exact updateOne_keeps h

/-- Clearing an element keeps the canonical form and the bounds. -/
theorem clearElement_keeps {cfg : Config} {m m' : Memory} {i : Nat} (h : clearElement cfg m i = some m') :
    KeepsStorage cfg m m' := by
  simp only [clearElement] at h
  split at h
  · exact updateTwo_keeps h
  · exact updateOne_keeps h

/-! ### Completing -/

theorem completeRead_next {d : Option Byte} {s t : State} :
    completeRead d s = .next t ↔ ∃ b, d = some b ∧ t = respond false b s := by
  cases d <;> simp [completeRead, eq_comm]

theorem completeWrite_next {m : Option Memory} {s t : State} :
    completeWrite m s = .next t ↔ ∃ m', m = some m' ∧ t = respond false 0#8 { s with storage := m' } := by
  cases m <;> simp [completeWrite, eq_comm]

theorem completeWriteWarning_next {index : Nat} {value : Byte} {m : Option Memory} {s t : State} :
    completeWriteWarning index value m s = .next t ↔
      ∃ m', m = some m' ∧ t = respond true 0#8 (recordTruncation index value { s with storage := m' }) := by
  cases m <;> simp [completeWriteWarning, eq_comm]

/-- After a command the host moves on, and nothing else changes. -/
theorem finishCommand_next {o : Host.Outcome State Fault Refusal} {u : State} :
    finishCommand o = .next u ↔ ∃ t, o = .next t ∧ u = advanceInputs t := by
  cases o <;> simp [finishCommand, eq_comm]

/-! ### What a command can do -/

/-- Everything `exec` can answer as a next state: the fault of rule R144, a read, a write, or a SET that warns. -/
theorem exec_next_cases {i : Instr} {s t : State} (h : exec i s = .next t) :
    (∃ c, rangeFault s.cfg i = some c ∧ t = raiseFault c s) ∨
    (rangeFault s.cfg i = none ∧ ∃ b, t = respond false b s) ∨
    (rangeFault s.cfg i = none ∧ ∃ m, KeepsStorage s.cfg s.storage m ∧ t = respond false 0#8 { s with storage := m }) ∨
    (∃ index value m, i = .set index value ∧ index < s.cfg.len ∧ truncates s.cfg value = true ∧
      KeepsStorage s.cfg s.storage m ∧ t = respond true 0#8 (recordTruncation index value { s with storage := m })) := by
  cases i with
  | get index =>
    simp only [exec, execGet, indexOutOfRange, decide_eq_true_eq] at h
    split at h
    · exact .inl ⟨.indexRange, by simp [rangeFault, *], by simpa using h.symm⟩
    · obtain ⟨b, -, rfl⟩ := completeRead_next.mp h
      exact .inr (.inl ⟨by simp [rangeFault, *], b, rfl⟩)
  | set index value =>
    simp only [exec, execSet, indexOutOfRange, decide_eq_true_eq] at h
    split at h
    · exact .inl ⟨.indexRange, by simp [rangeFault, *], by simpa using h.symm⟩
    · split at h
      · obtain ⟨m, hm, rfl⟩ := completeWriteWarning_next.mp h
        exact .inr (.inr (.inr ⟨index, value, m, rfl, by omega, ‹_›, writeElement_keeps hm, rfl⟩))
      · obtain ⟨m, hm, rfl⟩ := completeWrite_next.mp h
        exact .inr (.inr (.inl ⟨by simp [rangeFault, *], m, writeElement_keeps hm, rfl⟩))
  | clr index =>
    simp only [exec, execClr, indexOutOfRange, decide_eq_true_eq] at h
    split at h
    · exact .inl ⟨.indexRange, by simp [rangeFault, *], by simpa using h.symm⟩
    · obtain ⟨m, hm, rfl⟩ := completeWrite_next.mp h
      exact .inr (.inr (.inl ⟨by simp [rangeFault, *], m, clearElement_keeps hm, rfl⟩))
  | rdb addr =>
    simp only [exec, execRdb, addrOutOfRange, decide_eq_true_eq] at h
    split at h
    · exact .inl ⟨.byteRange, by simp [rangeFault, *], by simpa using h.symm⟩
    · obtain ⟨b, -, rfl⟩ := completeRead_next.mp h
      exact .inr (.inl ⟨by simp [rangeFault, *], b, rfl⟩)
  | wrb addr byte =>
    simp only [exec, execWrb, addrOutOfRange, decide_eq_true_eq] at h
    split at h
    · exact .inl ⟨.byteRange, by simp [rangeFault, *], by simpa using h.symm⟩
    · obtain ⟨m, hm, rfl⟩ := completeWrite_next.mp h
      exact .inr (.inr (.inl ⟨by simp [rangeFault, *], m, memWrite_keeps hm, rfl⟩))

end Sys2Proof.Machine
end

