-- ==== Sys2Proof/Laws/Layout.lean ====
section
/-! SUPPORT. The bits of the shifts, masks and fragments, and of a storage after a write: what bit-level proofs cite. -/

namespace Sys2Proof.Machine

/-- The bits of a low mask. -/
theorem getLsbD_lowMask {n : Nat} (hn : n ≤ 8) (k : Nat) : (lowMask n).getLsbD k = decide (k < n) := by
  rw [lowMask, BitVec.getLsbD_ofNat, Nat.testBit_two_pow_sub_one]
  by_cases h : k < n
  · simp [h, show k < 8 by omega]
  · simp [h]

theorem getLsbD_shl8 (x : Byte) (n k : Nat) :
    (shl8 x n).getLsbD k = (decide (k < 8) && !decide (k < n) && x.getLsbD (k - n)) :=
  BitVec.getLsbD_shiftLeft ..

theorem getLsbD_shr8 (x : Byte) (n k : Nat) : (shr8 x n).getLsbD k = x.getLsbD (n + k) :=
  BitVec.getLsbD_ushiftRight ..

/-- Bit `k` of the part of an element its start unit gives (rule R90): a bit of the unit, or 0 below a spanning tail. -/
theorem getLsbD_startFragment (cfg : Config) (o : Nat) (a : Byte) (k : Nat) :
    (startFragment cfg o a).getLsbD k =
      (decide (k < cfg.bits) && !decide (8 - cfg.bits + k < o) && a.getLsbD (8 - cfg.bits + k - o)) := by
  have hb := bits_range cfg
  rw [startFragment, BitVec.getLsbD_and, getLsbD_lowMask hb.2, getLsbD_shr8, getLsbD_shl8]
  by_cases h : k < cfg.bits
  · simp [h, show 8 - cfg.bits + k < 8 by omega]
  · simp [h]

/-- Bit `k` of the part of a spanning element the next unit gives (rule R90). -/
theorem getLsbD_nextFragment (cfg : Config) (o : Nat) (b : Byte) (k : Nat) :
    (nextFragment cfg o b).getLsbD k = b.getLsbD (16 - (o + cfg.bits) + k) :=
  getLsbD_shr8 ..

/-- Clearing the bits of an element inside its unit keeps exactly the other bits (rule R100). -/
theorem getLsbD_clearWhole (cfg : Config) {o : Nat} (ho : o + cfg.bits ≤ 8) (a : Byte) (k : Nat) :
    (clearWhole cfg o a).getLsbD k = (a.getLsbD k && !decide (8 - o - cfg.bits ≤ k ∧ k < 8 - o)) := by
  have hb := bits_range cfg
  rw [clearWhole, BitVec.getLsbD_and, BitVec.getLsbD_not, getLsbD_shl8, getLsbD_lowMask hb.2]
  by_cases hk : k < 8
  · by_cases h1 : k < 8 - o - cfg.bits
    · simp [hk, h1, show ¬ 8 - o - cfg.bits ≤ k by omega]
    · by_cases h2 : k < 8 - o
      · simp [hk, h1, h2, show k - (8 - o - cfg.bits) < cfg.bits by omega, Nat.le_of_not_lt h1]
      · simp [hk, h1, h2, show ¬ k - (8 - o - cfg.bits) < cfg.bits by omega]
  · simp [hk, BitVec.getLsbD_of_ge a k (by omega)]

/-- Clearing the tail fragment keeps the bits at and above `h` (rule R100). -/
theorem getLsbD_clearTail {h : Nat} (hh : h ≤ 8) (a : Byte) (k : Nat) :
    (clearTail h a).getLsbD k = (a.getLsbD k && !decide (k < h)) := by
  rw [clearTail, BitVec.getLsbD_and, BitVec.getLsbD_not, getLsbD_lowMask hh]
  by_cases hk : k < 8
  · simp [hk]
  · simp [BitVec.getLsbD_of_ge a k (by omega)]

/-- Clearing the head fragment keeps the bits below `8 - l` (rule R100). -/
theorem getLsbD_clearHead {l : Nat} (hl : l ≤ 8) (b : Byte) (k : Nat) :
    (clearHead l b).getLsbD k = (b.getLsbD k && decide (k < 8 - l)) := by
  have hff : (0xFF#8).getLsbD (l + k) = decide (l + k < 8) := by
    have := getLsbD_lowMask (Nat.le_refl 8) (l + k)
    simpa [lowMask] using this
  rw [clearHead, BitVec.getLsbD_and, getLsbD_shr8, hff]
  simp [show l + k < 8 ↔ k < 8 - l by omega]

/-- The bits of a truncated value (rule R101). -/
theorem getLsbD_truncated (cfg : Config) (value : Byte) (k : Nat) :
    (truncated cfg value).getLsbD k = (decide (k < cfg.bits) && value.getLsbD k) := by
  have hb := bits_range cfg
  rw [truncated, BitVec.getLsbD_ofNat, Nat.testBit_mod_two_pow]
  by_cases h : k < cfg.bits
  · simp [h, show k < 8 by omega, BitVec.getLsbD]
  · simp [h]

/-- A storage bit after one unit is written. -/
theorem storageBit_setUnit {m : Memory} (u abs : Nat) (v : Byte) (hw : m.wf = true) :
    storageBit (m.setUnit u v) abs = if abs / 8 = u then v.getLsbD (7 - abs % 8) else storageBit m abs := by
  unfold storageBit
  rw [unitAt_setUnit u _ v hw]
  split <;> rfl

/-- One more bit at the end of a written number. -/
theorem bitsToNat_snoc (bs : List Bool) (b : Bool) : bitsToNat (bs ++ [b]) = 2 * bitsToNat bs + b.toNat := by
  simp [bitsToNat]

/-- A number written in `n` bits is below `2^n`. -/
theorem bitsToNat_lt (bs : List Bool) : bitsToNat bs < 2 ^ bs.length := by
  induction bs using List.reverseRecOn with
  | nil => simp [bitsToNat]
  | append_singleton bs b ih =>
    rw [bitsToNat_snoc, List.length_append, List.length_singleton, pow_succ]
    cases b <;> simp <;> omega

/-- An element is below `2^BITS` (rule R42). -/
theorem elementValue_lt (cfg : Config) (m : Memory) (i : Nat) : elementValue cfg m i < 2 ^ cfg.bits := by
  have := bitsToNat_lt ((List.range cfg.bits).map fun k => storageBit m (bitOffset cfg i + k))
  simpa [elementValue] using this

end Sys2Proof.Machine
end

