-- ==== Sys2Proof/Laws/PerInstr.lean ====
section
/-! SUPPORT. Statements made of every command as syntax, one lemma per constructor. -/

namespace Sys2Proof.Laws.EncodedHeader

/-- The word of a command carries its opcode in `OP` and zero in `RSV` (rules R61, R62, R69). -/
def Statement (i : Instr) : Prop := opField (encode i) = i.opcode ∧ rsvField (encode i) = 0#4

theorem get (index : Nat) : Statement (.get index) := by simp [Statement, encode, Instr.opcode]
theorem set (index : Nat) (value : Byte) : Statement (.set index value) := by simp [Statement, encode, Instr.opcode]
theorem clr (index : Nat) : Statement (.clr index) := by simp [Statement, encode, Instr.opcode]
theorem rdb (addr : Nat) : Statement (.rdb addr) := by simp [Statement, encode, Instr.opcode]
theorem wrb (addr : Nat) (byte : Byte) : Statement (.wrb addr byte) := by simp [Statement, encode, Instr.opcode]

end Sys2Proof.Laws.EncodedHeader
end

