-- ==== Sys2Proof/Laws/Step.lean ====
section
/-! SUPPORT. What one step can do: the port's four cases, the inversion of step, and issuing one command. -/

namespace Sys2Proof.Machine

theorem portEvent_of_rst {s : State} (h : s.pins.rst = true) : portEvent s = .reset := by
  simp [portEvent, h]

theorem portEvent_of_halted {s : State} (hr : s.pins.rst = false) (hf : s.fault = true) : portEvent s = .stuck := by
  simp [portEvent, hr, hf]

theorem portEvent_of_accepts {s : State} {w : CommandWord} (h : Accepts s w) : portEvent s = .accept w := by
  obtain ⟨hr, hf, hv, hw⟩ := h
  simp [portEvent, hr, hf, hv, hw]

theorem portEvent_of_idle {s : State} (hr : s.pins.rst = false) (hf : s.fault = false) (hv : s.pins.cmdValid = false) :
    portEvent s = .idle := by
  simp [portEvent, hr, hf, hv]

/-- The four cases at the ports, and what each says of the pins and the latch. -/
theorem portEvent_cases (s : State) :
    (s.pins.rst = true ∧ portEvent s = .reset) ∨
    (s.pins.rst = false ∧ s.fault = true ∧ portEvent s = .stuck) ∨
    (s.pins.rst = false ∧ s.fault = false ∧ s.pins.cmdValid = false ∧ portEvent s = .idle) ∨
    (Accepts s s.pins.cmd ∧ portEvent s = .accept s.pins.cmd) := by
  cases hr : s.pins.rst
  · cases hf : s.fault
    · cases hv : s.pins.cmdValid
      · exact .inr (.inr (.inl ⟨rfl, rfl, rfl, portEvent_of_idle hr hf hv⟩))
      · exact .inr (.inr (.inr ⟨⟨hr, hf, hv, rfl⟩, portEvent_of_accepts ⟨hr, hf, hv, rfl⟩⟩))
    · exact .inr (.inl ⟨rfl, rfl, portEvent_of_halted hr hf⟩)
  · exact .inl ⟨rfl, portEvent_of_rst hr⟩

theorem step_of_accepts {s : State} {w : CommandWord} (h : Accepts s w) : step s = finishCommand (runWord w s) := by
  simp [step, portEvent_of_accepts h]

/-- Offering a word to a ready block is having it accepted. -/
theorem accepts_offer {s : State} (w : CommandWord) (h : s.fault = false) : Accepts (s.offer w) w :=
  ⟨rfl, h, rfl, rfl⟩

/-- Everything a step can answer as a next state: reset, waiting, an illegal word's fault, or a command. -/
theorem step_next_cases {s t : State} (h : step s = .next t) :
    (s.pins.rst = true ∧ t = advanceInputs (applyReset s)) ∨
    (s.pins.rst = false ∧ s.fault = false ∧ s.pins.cmdValid = false ∧ t = advanceInputs (waitForCommand s)) ∨
    (Accepts s s.pins.cmd ∧ (∃ why, Sys2Proof.decode s.pins.cmd = .illegal why) ∧
      t = advanceInputs (raiseFault .illegalCmd s)) ∨
    (Accepts s s.pins.cmd ∧ ∃ i u, Sys2Proof.decode s.pins.cmd = .command i ∧ exec i s = .next u ∧ t = advanceInputs u) := by
  rcases portEvent_cases s with ⟨hr, he⟩ | ⟨hr, hf, he⟩ | ⟨hr, hf, hv, he⟩ | ⟨ha, he⟩
  · exact .inl ⟨hr, by simpa [step, he] using h.symm⟩
  · simp [step, he] at h
  · exact .inr (.inl ⟨hr, hf, hv, by simpa [step, he] using h.symm⟩)
  · simp only [step, he] at h
    obtain ⟨u, hu, rfl⟩ := finishCommand_next.mp h
    cases hd : Sys2Proof.decode s.pins.cmd with
    | command i =>
      simp only [runWord, hd] at hu
      exact .inr (.inr (.inr ⟨ha, i, u, rfl, hu, rfl⟩))
    | illegal why =>
      simp only [runWord, hd] at hu
      cases hu
      exact .inr (.inr (.inl ⟨ha, ⟨why, rfl⟩, rfl⟩))

/-- Issuing a word that decodes to a command is executing the command at the port, when the block is ready. -/
theorem issue_command {s u : State} {w : CommandWord} {i : Instr} {r : ResponseWord} (hf : s.fault = false)
    (hd : Sys2Proof.decode w = .command i) (he : exec i (s.offer w) = .next u) (hr : u.rsp = some r) :
    issue w s = some (advanceInputs u, r) := by
  simp [issue, step_of_accepts (accepts_offer w hf), runWord, hd, he, finishCommand, hr]

/-- The response of a run is the responses in order. -/
theorem issueAll_cons {w : CommandWord} {ws : List CommandWord} {s t t' : State} {r : ResponseWord}
    {rs : List ResponseWord} (h : issue w s = some (t, r)) (h' : issueAll ws t = some (t', rs)) :
    issueAll (w :: ws) s = some (t', r :: rs) := by
  simp [issueAll, h, h']

/-- DESER cannot run on a halted block (rule R137). -/
theorem deserRun_of_halted {b : List Byte} {s : State} (h : s.fault = true) : deserRun b s = none := if_pos h

/-- DESER on a ready block is its run of WRB commands (rule R137). -/
theorem deserRun_of_issueAll {b : List Byte} {s t : State} {rs : List ResponseWord} (hf : s.fault = false)
    (hb : b.length = s.cfg.nbytes) (h : issueAll (wrbCommands 0 b) s = some (t, rs)) : deserRun b s = some t := by
  simp [deserRun, hf, hb, h]

/-- A request past the last element finds ITER over (rule R133). -/
theorem iterNext_of_ge {n : Nat} {s : State} (h : s.cfg.len ≤ n) : iterNext n s = .done := if_pos h

/-- A request below `LEN` is one GET (rule R133). -/
theorem iterNext_of_issue {n : Nat} {s t : State} {r : ResponseWord} (h : n < s.cfg.len)
    (hi : issue (encode (.get n)) s = some (t, r)) : iterNext n s = .value (rspData r) (n + 1) t := by
  simp [iterNext, Nat.not_le.mpr h, hi]

/-- Requests that find ITER over leave the block as it is. -/
theorem iterFrom_of_ge {k n : Nat} {s : State} (h : s.cfg.len ≤ n) : iterFrom (k + 1) n s = some (s, []) := by
  simp [iterFrom, iterNext_of_ge h]

/-- Requests that get a value go on from the counter after it. -/
theorem iterFrom_of_value {k n n' : Nat} {s t t' : State} {d : Byte} {ds : List Byte}
    (h : iterNext n s = .value d n' t) (h' : iterFrom k n' t = some (t', ds)) :
    iterFrom (k + 1) n s = some (t', d :: ds) := by
  simp [iterFrom, h, h']

end Sys2Proof.Machine
end

