-- ==== Sys2Proof/Tests/Slice0.lean ====
section
/-! SUPPORT. Tests with expected values from spec/95_test_vectors.md and the worked examples of the rules, the WellFormed
smoke test, and for every statement with hypotheses a witness that meets them. -/

namespace Sys2Proof.Machine.Tests

/-! ### Helpers -/

/-- An instance from two legal numbers, and otherwise the worked one. -/
def inst (b l : Nat) : Config := (Config.build? b l).getD Config.worked

/-- A state of an instance with these bytes stored, after a reset. -/
def stored (b l : Nat) (bytes : List Byte) : State := { State.resetOf (inst b l) with storage := Memory.ofBytes 0 bytes }

/-- The next state of an outcome. -/
def next? : Host.Outcome State Fault Refusal → Option State
  | .next t => some t
  | .fault _ => none
  | .refused _ => none

/-- The stored bytes and the response after one step that takes a word. -/
def after (w : CommandWord) (s : State) : Option (List Byte × Option ResponseWord) :=
  (next? (step (s.offer w))).map fun t => (bytesOf t.cfg t.storage, t.rsp)

/-- Response and fault registers after one step that takes a word. -/
def faultAfter (w : CommandWord) (s : State) : Option (Option ResponseWord × Bool × BitVec 2 × CommandWord) :=
  (next? (step (s.offer w))).map fun t => (t.rsp, t.fault, t.fcause, t.fcmd)

/-- BITS = 3, LEN = 9, `[0x02, 0x80, 0x00, 0x00]`. -/
def demo : State := stored 3 9 [0x02#8, 0x80#8, 0x00#8, 0x00#8]

/-- The same, halted by `GET 9`. -/
def halted : State := { demo with fault := true, fcause := 1#2, fcmd := 0x10000900#32 }

/-! ### WellFormed: each check refuses an ill-formed command (rule R70) -/

theorem test_get_index_fits : Instr.wf (.get 65535) = true ∧ Instr.wf (.get 65536) = false := by decide
theorem test_set_index_fits : Instr.wf (.set 65535 0xFF#8) = true ∧ Instr.wf (.set 65536 0#8) = false := by decide
theorem test_clr_index_fits : Instr.wf (.clr 65535) = true ∧ Instr.wf (.clr 65536) = false := by decide
theorem test_rdb_addr_fits : Instr.wf (.rdb 65535) = true ∧ Instr.wf (.rdb 65536) = false := by decide
theorem test_wrb_addr_fits : Instr.wf (.wrb 65535 0#8) = true ∧ Instr.wf (.wrb 65536 0#8) = false := by decide

/-! ### Decoding: words written out from rule R61: OP, RSV, IDX, VAL -/

/-- GET 0x1234 with VAL = 0xFF: `0001 0000 0001001000110100 11111111`. -/
theorem test_decode_get : decode 0b00010000000100100011010011111111#32 = .command (.get 0x1234) := by decide
/-- SET 2, 0xFD: `0010 0000 0000000000000010 11111101`. -/
theorem test_decode_set : decode 0b00100000000000000000001011111101#32 = .command (.set 2 0xFD#8) := by decide
/-- CLR 0x8001 with VAL = 1: `0011 0000 1000000000000001 00000001`. -/
theorem test_decode_clr : decode 0b00110000100000000000000100000001#32 = .command (.clr 0x8001) := by decide
/-- RDB 1 with VAL = 0xAA (V5): `0100 0000 0000000000000001 10101010`. -/
theorem test_decode_rdb : decode 0b01000000000000000000000110101010#32 = .command (.rdb 1) := by decide
/-- WRB 3, 0xFF (V4): `0101 0000 0000000000000011 11111111`. -/
theorem test_decode_wrb : decode 0b01010000000000000000001111111111#32 = .command (.wrb 3 0xFF#8) := by decide
/-- V5: illegal words, `RSV` checked whatever `OP` is. -/
theorem test_decode_illegal : decode 0x21000205#32 = .illegal (.reservedField 1#4) ∧
    decode 0x60FFFF00#32 = .illegal (.unassignedOpcode 6#4) ∧ decode 0#32 = .illegal (.unassignedOpcode 0#4) ∧
    decode 0xF0000000#32 = .illegal (.unassignedOpcode 0xF#4) := by decide
theorem test_encode_words : encode (.get 9) = 0x10000900#32 ∧ encode (.set 2 5#8) = 0x20000205#32 ∧
    encode (.clr 2) = 0x30000200#32 ∧ encode (.rdb 3) = 0x40000300#32 ∧ encode (.wrb 1 0x80#8) = 0x50000180#32 := by decide
theorem test_table_word_runs : decodeTableWord 32 0x20000205 = some (.set 2 5#8) ∧
    after 0x20000205#32 State.reset = some ([0x02#8, 0x80#8, 0#8, 0#8], some 0#16) := by decide

/-! ### Constants and resolution (S1, V1) -/

theorem test_worked_instance : inst 3 9 = Config.worked ∧ (inst 3 9).nbytes = 4 ∧ (inst 3 9).padBits = 5 := by decide
theorem test_identifier : Config.worked.identifier = "PIA-CORE-B3-L9" := by decide
theorem test_fetch_word_runs : (next? (step (State.reset.withFetchWord 32 0x500003FF))).map (fun t => (t.storage, t.inputs)) =
    some ([(3, 0xFF#8)], []) := by decide
theorem test_build_refuses : Config.build? 0 1 = none ∧ Config.build? 9 1 = none ∧ Config.build? 8 65537 = none ∧
    (Config.build? 8 65536).isSome = true ∧ (Config.build? 1 0).isSome = true := by decide
theorem test_resolve_v1 : resolve (inst 3 9) 2 = ⟨0, 6, true⟩ ∧ resolve (inst 5 8) 3 = ⟨1, 7, true⟩ ∧
    resolve (inst 6 4) 2 = ⟨1, 4, true⟩ ∧ resolve (inst 7 8) 7 = ⟨6, 1, false⟩ ∧ resolve (inst 2 4) 3 = ⟨0, 6, false⟩ := by
  decide

/-! ### GET (rule R90, V2) -/

theorem test_get_spanning : after 0x10000200#32 demo = some ([0x02#8, 0x80#8, 0#8, 0#8], some 0x0005#16) := by decide
theorem test_unpack_v2 : elementsOf (inst 5 8) (stored 5 8 [0xDE#8, 0xAD#8, 0xBE#8, 0xEF#8, 0x55#8]).storage =
    [27#8, 26#8, 22#8, 27#8, 29#8, 27#8, 26#8, 21#8] := by decide

/-! ### SET and CLR (V3) -/

/-- Block E: SET 3, 0xFF at BITS = 7 spans, truncates and warns. -/
theorem test_set_truncates : (next? (step ((stored 7 8 [0x01#8, 0xFC#8, 0#8, 0#8, 0#8, 0#8, 0x55#8]).offer 0x200003FF#32))).map
    (fun t => (bytesOf t.cfg t.storage, t.rsp, t.warn, t.diag)) =
    some ([0x01#8, 0xFC#8, 0x07#8, 0xF0#8, 0#8, 0#8, 0x55#8], some 0x4000#16, true, [(3, 0xFF#8)]) := by decide
/-- Block B: SET 5, 2 from ones keeps the other bits. -/
theorem test_set_keeps_neighbours : after 0x20000502#32 (stored 3 9 [0xFC#8, 0x7F#8, 0xFF#8, 0xFF#8]) =
    some ([0xFC#8, 0x7E#8, 0xBF#8, 0xFF#8], some 0#16) := by decide
/-- Rule R106's example. -/
theorem test_clr_spanning : after 0x300002FF#32 (stored 3 9 [0xFF#8, 0xFF#8, 0xFF#8, 0xFF#8]) =
    some ([0xFC#8, 0x7F#8, 0xFF#8, 0xFF#8], some 0#16) := by decide
/-- Block F. -/
theorem test_clr_last : after 0x30000300#32 (stored 6 4 [0xFC#8, 0x0A#8, 0xBF#8]) =
    some ([0xFC#8, 0x0A#8, 0x80#8], some 0#16) := by decide

/-! ### RDB and WRB (V4) -/

theorem test_rdb_pad_bits : after 0x40000300#32 (stored 3 9 [0x02#8, 0#8, 0#8, 0xFF#8]) =
    some ([0x02#8, 0#8, 0#8, 0xFF#8], some 0x00FF#16) := by decide
theorem test_wrb_verbatim : after 0x500003FF#32 demo = some ([0x02#8, 0x80#8, 0#8, 0xFF#8], some 0#16) := by decide

/-! ### Faults, halting, reset (V5, P4) -/

theorem test_index_range : faultAfter 0x200009FF#32 demo = some (some 0x8100#16, true, 1#2, 0x200009FF#32) := by decide
theorem test_byte_range : faultAfter 0x50000401#32 demo = some (some 0x8300#16, true, 3#2, 0x50000401#32) := by decide
theorem test_illegal_before_range : faultAfter 0x60FFFF00#32 demo = some (some 0x8200#16, true, 2#2, 0x60FFFF00#32) := by
  decide
theorem test_halted_takes_nothing : next? (step (halted.offer 0x20000001#32)) = none ∧
    (next? (step halted.assertReset)).map (fun t => (t.storage, t.fault, t.fcause, t.fcmd)) = some ([], false, 0#2, 0#32) := by
  decide

/-! ### Pseudo-operations (V6) and the listing (R70) -/

theorem test_eqa_ignores_pad_bits : eqa? (inst 3 9) (stored 3 9 [0x01#8, 0x80#8, 0#8, 0x1F#8]).storage
      [0#8, 0#8, 3#8, 0#8, 0#8, 0#8, 0#8, 0#8, 0#8] = some true ∧
    eqp? (inst 3 9) (stored 3 9 [0x01#8, 0x80#8, 0#8, 0x1F#8]).storage [0x01#8, 0x80#8, 0#8, 0#8] = some false := by decide
/-- V2: at BITS = 5, LEN = 3 ITER yields 2, 8, 26 and ends; with LEN = 0 it is over at once. -/
theorem test_iter_v2 : (iterRun (stored 5 3 [0x12#8, 0x34#8])).map (·.2) = some [2#8, 8#8, 26#8] ∧
    (iterRun (stored 3 0 [])).map (·.2) = some [] := by decide
/-- Rule R137: DESER cannot run on a halted block, with no bytes to write either; on a ready one it can. -/
theorem test_deser_halted : deserRun [] { stored 3 0 [] with fault := true } = none ∧
    deserRun [] (stored 3 0 []) = some (stored 3 0 []) ∧ deserRun [0#8, 0#8, 0#8, 0#8] halted = none := by decide
theorem test_assemble : assemble ['S', 'E', 'T', ' ', '2', ',', ' ', '0', 'b', '1', '0', '1'] = some (.command (.set 2 5#8)) ∧
    assemble ['G', 'E', 'T', ' ', '6', '5', '5', '3', '6'] = none ∧
    assemble ['W', 'R', 'B', ' ', '0', ',', ' ', '2', '5', '6'] = none := by decide

/-! ### Witnesses: states and operands that meet the hypotheses of each statement -/

theorem witness_DecodeOfEncodeIsTheCommand : WellFormed (.set 65535 0xFF#8) ∧ WellFormed (.get 0) := by decide
theorem witness_EncodeOfDecodeIsTheWord : decode 0x100009FF#32 = .command (.get 9) ∧
    decode 0x200009FF#32 = .command (.set 9 0xFF#8) ∧ valField 0x30000900#32 = 0#8 := by decide
theorem witness_IllegalWordsFault : Accepts (demo.offer 0#32) 0#32 ∧ opField 0#32 = 0#4 ∧ 6 ≤ (opField 0x60000000#32).toNat ∧
    rsvField 0x11000000#32 ≠ 0#4 := ⟨⟨rfl, rfl, rfl, rfl⟩, by decide⟩
theorem witness_ValueFieldIgnored : opField 0x10000200#32 ∈ [0x1#4, 0x3#4, 0x4#4] ∧
    opField 0x100002FF#32 = opField 0x10000200#32 ∧ rsvField 0x100002FF#32 = rsvField 0x10000200#32 ∧
    idxField 0x100002FF#32 = idxField 0x10000200#32 ∧ demo.fault = false ∧
    decode 0x10000200#32 = .command (.get 2) ∧ decode 0x100002FF#32 = .command (.get 2) ∧
    (0x10000200#32 : CommandWord) ≠ 0x100002FF#32 := by decide
theorem witness_ListingAssembles : WellFormed (.wrb 65535 0xA5#8) ∧ ¬ WellFormed (.get 65536) := by decide
theorem witness_InstancesAreTheLegalOnes : Config.build? 3 9 = some Config.worked := by decide
theorem witness_ResolvedElementInsideStorage : 8 < demo.cfg.len ∧ (resolve demo.cfg 2).spans = true ∧
    (resolve demo.cfg 8).spans = false ∧ demo.storage.wf = true ∧
    (writeElement demo.cfg demo.storage 8 7#8).isSome = true ∧ (clearElement demo.cfg demo.storage 8).isSome = true := by
  decide
theorem witness_OffsetsByWidth : (inst 8 1).bits = 8 ∧ (inst 4 1).bits = 4 ∧ (inst 2 1).bits = 2 ∧ (inst 1 1).bits = 1 ∧
    (inst 7 1).bits ∈ [3, 5, 7] ∧ (inst 6 1).bits = 6 := by decide
theorem witness_FragmentsOfAnElement : (resolve (inst 7 8) 1).spans = true ∧ (resolve (inst 7 8) 7).spans = false := by decide
theorem witness_ShiftAmountsBelowEight : (resolve (inst 5 8) 3).spans = true ∧ (resolve (inst 5 8) 0).spans = false := by
  decide
theorem witness_TruncationTestIsExact : (inst 8 1).bits = 8 ∧ truncates (inst 7 1) 0x80#8 = true := ⟨rfl, rfl⟩
theorem witness_PadBitsBelongToNoElement : demo.cfg.bits * demo.cfg.len ≤ 27 ∧ 27 < 8 * demo.cfg.nbytes ∧
    26 < demo.cfg.bits * demo.cfg.len ∧ inElement demo.cfg 8 26 = true := by decide
theorem witness_GetReadsTheElement : 8 < demo.cfg.len ∧ demo.cfg.len ≤ 9 := by decide
theorem witness_GetFormsAgree : 8 < demo.cfg.len ∧ (resolve demo.cfg 8).spans = false := by decide
theorem witness_GetChangesNothing : 8 < demo.cfg.len ∧ demo.fault = false ∧
    (∀ w ∈ [0x10000200#32, 0x40000000#32], opField w ∈ [0x1#4, 0x4#4]) ∧
    (issueAll [0x10000200#32, 0x40000000#32] demo).map (fun p => p.1.fault) = some false :=
  ⟨by decide, rfl,
    by intro w hw; simp only [List.mem_cons, List.not_mem_nil, or_false] at hw; rcases hw with rfl | rfl <;> decide, rfl⟩
theorem witness_FreshBlockReadsZero : demo.assertReset.pins.rst = true ∧
    ((next? (step demo.assertReset)).bind (issueAll [0x10000200#32, 0x30000300#32])).map
      (fun p => (p.1.fault, p.1.cfg.len, p.1.cfg.nbytes)) = some (false, 9, 4) ∧
    (∀ w ∈ [0x10000200#32, 0x30000300#32], opField w ∉ [0x2#4, 0x5#4]) := ⟨rfl, rfl,
    by intro w hw; simp only [List.mem_cons, List.not_mem_nil, or_false] at hw; rcases hw with rfl | rfl <;> decide⟩
theorem witness_SetWritesTheElement : demo.storage.wf = true ∧ 8 < demo.cfg.len ∧ demo.cfg.len ≤ 9 ∧
    2 ^ demo.cfg.bits ≤ (0x08#8).toNat ∧ (0x07#8).toNat < 2 ^ demo.cfg.bits ∧ 2 * demo.cfg.bits % 8 + demo.cfg.bits > 8 ∧
    8 * demo.cfg.bits % 8 + demo.cfg.bits ≤ 8 := by decide
theorem witness_SetPostconditions : demo.storage.wf = true ∧ 2 < demo.cfg.len ∧ 3 < demo.cfg.len ∧
    inElement demo.cfg 2 9 = false ∧ writesUnit demo.cfg 2 2 = false ∧
    (0x0D#8).toNat % 2 ^ demo.cfg.bits = (0x05#8).toNat % 2 ^ demo.cfg.bits ∧
    (next? (exec (.set 2 0x0D#8) demo)).isSome = true := by decide
theorem witness_SetClosedForm : demo.storage.wf = true ∧ 2 < demo.cfg.len ∧ (next? (exec (.set 2 5#8) demo)).isSome = true ∧
    (resolve demo.cfg 2).spans = true ∧ (resolve demo.cfg 8).spans = false ∧ (next? (exec (.set 8 5#8) demo)).isSome = true := by
  decide
theorem witness_FullWidthNeverWarns : 1 < (stored 8 2 []).cfg.len ∧ (stored 8 2 []).cfg.bits = 8 ∧ 8 < demo.cfg.len ∧
    demo.cfg.bits < 8 := by decide
theorem witness_AliasedSetsStoreTheSame : 8 < demo.cfg.len ∧
    (0x05#8).toNat % 2 ^ demo.cfg.bits = (0xFD#8).toNat % 2 ^ demo.cfg.bits ∧ (0x05#8).toNat < 2 ^ demo.cfg.bits ∧
    (0x05#8) ≠ (0xFD#8) := by decide
theorem witness_ClrClearsTheElement : demo.storage.wf = true ∧ 8 < demo.cfg.len ∧ demo.cfg.len ≤ 9 ∧
    8 < 2 * demo.cfg.bits % 8 + demo.cfg.bits ∧ 8 * demo.cfg.bits % 8 + demo.cfg.bits ≤ 8 := by decide
theorem witness_ClrPostconditions : demo.storage.wf = true ∧ 2 < demo.cfg.len ∧ 3 < demo.cfg.len ∧
    inElement demo.cfg 2 9 = false := by decide
theorem witness_ClrIsSetZero : 8 < demo.cfg.len := by decide
theorem witness_RdbReadsTheUnit : 3 < demo.cfg.nbytes ∧ demo.cfg.nbytes ≤ 4 := by decide
theorem witness_WrbWritesTheUnit : demo.storage.wf = true ∧ 3 < demo.cfg.nbytes ∧ demo.cfg.nbytes ≤ 4 := by decide
theorem witness_CanonicalStorage : demo.assertReset.pins.rst = true ∧ (next? (step demo.assertReset)).isSome = true ∧
    demo.storage.wf = true ∧ (next? (exec (.clr 8) demo)).isSome = true ∧ 3 < demo.cfg.nbytes ∧
    demo.cfg.bits * demo.cfg.len ≤ 31 ∧ 31 < 8 * demo.cfg.nbytes := by decide
theorem witness_CanonicalStorage_clr_is_no_wrb : ∀ a b, Instr.clr 8 ≠ .wrb a b := by simp
theorem witness_ViewsShowTheSameBits : demo.storage.wf = true ∧ 2 < demo.cfg.len ∧ 1 < demo.cfg.nbytes ∧
    (next? (exec (.set 2 5#8) demo)).isSome = true ∧ (next? (exec (.wrb 1 0xFF#8) demo)).isSome = true := by decide
theorem witness_CommandsAreIdempotent : demo.storage.wf = true ∧
    ((next? (exec (.set 2 0xFD#8) demo)).bind fun t => next? (exec (.set 2 0xFD#8) t)).isSome = true := by decide
theorem witness_UnitsChangeOnlyByTheirCommands : demo.storage.wf = true ∧ (demo.offer 0x500003FF#32).pins.rst = false ∧
    (next? (step (demo.offer 0x500003FF#32))).map (fun t => decide (t.storage.unitAt 3 ≠ demo.storage.unitAt 3)) = some true ∧
    (next? (step (demo.offer 0x20000202#32))).map (fun t => decide (t.storage.unitAt 1 ≠ demo.storage.unitAt 1)) = some true := by
  decide
theorem witness_EveryCommandCompletesOrFaults : Accepts (demo.offer 0x10000800#32) 0x10000800#32 ∧
    faultCause demo.cfg 0x10000800#32 = none ∧ faultCause demo.cfg 0x10000900#32 = some .indexRange ∧
    faultCause demo.cfg 0x40000400#32 = some .byteRange ∧ faultCause demo.cfg 0x11000900#32 = some .illegalCmd :=
  ⟨⟨rfl, rfl, rfl, rfl⟩, by decide⟩
theorem witness_ChecksInOrder_illegal : Accepts (demo.offer 0x6FFFFF00#32) 0x6FFFFF00#32 ∧ rsvField 0x6FFFFF00#32 ≠ 0#4 :=
  ⟨⟨rfl, rfl, rfl, rfl⟩, by decide⟩
theorem witness_ChecksInOrder_illegal_opcode : Accepts (demo.offer 0x60FFFF00#32) 0x60FFFF00#32 ∧
    rsvField 0x60FFFF00#32 = 0#4 ∧ opField 0x60FFFF00#32 ∉ [0x1#4, 0x2#4, 0x3#4, 0x4#4, 0x5#4] :=
  ⟨⟨rfl, rfl, rfl, rfl⟩, by decide⟩
theorem witness_ChecksInOrder_index : Accepts (demo.offer 0x200009FF#32) 0x200009FF#32 ∧ rsvField 0x200009FF#32 = 0#4 ∧
    opField 0x200009FF#32 ∈ [0x1#4, 0x2#4, 0x3#4] ∧ (demo.offer 0x200009FF#32).cfg.len ≤ (idxField 0x200009FF#32).toNat :=
  ⟨⟨rfl, rfl, rfl, rfl⟩, by decide⟩
theorem witness_ChecksInOrder_byte : Accepts (demo.offer 0x50000401#32) 0x50000401#32 ∧ rsvField 0x50000401#32 = 0#4 ∧
    opField 0x50000401#32 ∈ [0x4#4, 0x5#4] ∧ (demo.offer 0x50000401#32).cfg.nbytes ≤ (idxField 0x50000401#32).toNat :=
  ⟨⟨rfl, rfl, rfl, rfl⟩, by decide⟩
theorem witness_ChecksInOrder_warning : Accepts (demo.offer 0x20000808#32) 0x20000808#32 ∧ rsvField 0x20000808#32 = 0#4 ∧
    opField 0x20000808#32 = 0x2#4 ∧ (idxField 0x20000808#32).toNat < (demo.offer 0x20000808#32).cfg.len ∧
    2 ^ (demo.offer 0x20000808#32).cfg.bits ≤ (valField 0x20000808#32).toNat :=
  ⟨⟨rfl, rfl, rfl, rfl⟩, by decide⟩
theorem witness_ChecksInOrder_warned : Accepts (demo.offer 0x20000808#32) 0x20000808#32 ∧
    (next? (step (demo.offer 0x20000808#32))).map (fun t => (t.warn, decide (t.diag ≠ demo.diag))) = some (true, true) :=
  ⟨⟨rfl, rfl, rfl, rfl⟩, by decide⟩
theorem witness_ResponseFields : Accepts (demo.offer 0x10000200#32) 0x10000200#32 := ⟨rfl, rfl, rfl, rfl⟩
theorem witness_WarningOnlyOfTruncatingSet :
    (next? (step (demo.offer 0x20000808#32))).map (·.diag) = some [(8, 0x08#8)] ∧
    (next? (step (demo.offer 0x20000807#32))).map (·.diag) = some [] := by decide
theorem witness_HaltedBlockTakesOnlyReset : halted.fault = true ∧ (halted.offer 0x10000000#32).pins.rst = false ∧
    halted.assertReset.pins.rst = true := by decide
theorem witness_FaultLatchIsSticky : (next? (step halted.assertReset)).map (·.fault) = some false ∧ halted.fault = true ∧
    (next? (step (demo.offer 0x10000900#32))).map (·.fault) = some true ∧
    (next? (step (demo.offer 0x10000800#32))).map (·.fault) = some false := by decide
theorem witness_ResetLeavesZero : halted.assertReset.pins.rst = true := by decide
theorem witness_TwoResetsAreOne : halted.assertReset.assertReset.pins.rst = true ∧
    (next? (step halted.assertReset.assertReset)).map (·.pins.rst) = some true := by decide
theorem witness_EveryStepKeepsTheInvariant : (State.reset.offer 0x20000205#32).Inv ∧
    (next? (step (State.reset.offer 0x20000205#32))).isSome = true :=
  ⟨{ storageWf := rfl, storageInside := rfl, readyClear := fun _ => ⟨rfl, rfl⟩,
     haltedCause := fun h => absurd h (by decide), responseLegal := (by intro _ h; cases h),
     warnIsWrn := rfl, diagTruncates := fun _ h => absurd h (by exact List.not_mem_nil) }, by decide⟩
theorem witness_ConstantsNeverChange : (next? (step (demo.offer 0x500003FF#32))).isSome = true ∧
    demo.storage.within demo.cfg.nbytes = true := by decide
theorem witness_OutputsAreNeverRead : (next? (step (demo.offer 0x20000208#32))).isSome = true ∧
    (match step (halted.offer 0#32) with | .fault f => decide (f = .halted) | _ => false) = true := by decide
theorem witness_EmptyInstanceAlwaysFaults : ((stored 3 0 []).offer 0x40000000#32).cfg.len = 0 ∧
    Accepts ((stored 3 0 []).offer 0x40000000#32) 0x40000000#32 := ⟨by decide, ⟨rfl, rfl, rfl, rfl⟩⟩
theorem witness_ReadyBlockWaits : demo.pins.rst = false ∧ demo.fault = false ∧ demo.pins.cmdValid = false := by decide
theorem witness_StepRunsTheDecodedCommand : Accepts (demo.offer 0x20000205#32) 0x20000205#32 ∧
    decode 0x20000205#32 = .command (.set 2 5#8) ∧ (next? (exec (.set 2 5#8) (demo.offer 0x20000205#32))).isSome = true ∧
    demo.fault = false ∧ decodeTableWord 32 0x20000205 = some (.set 2 5#8) := ⟨⟨rfl, rfl, rfl, rfl⟩, by decide⟩
theorem witness_UnpackGivesTheElements : demo.fault = false ∧ 8 < demo.cfg.len ∧ (stored 3 0 []).cfg.len = 0 := by decide
theorem witness_IteratorYieldsTheElements : demo.fault = false ∧ 8 < demo.cfg.len ∧ demo.cfg.len ≤ 9 := by decide
theorem witness_HostRunsComputeTheirFunctions : demo.fault = false ∧
    (bytesOf demo.cfg demo.storage).length = demo.cfg.nbytes ∧ (elementsOf demo.cfg demo.storage).length = demo.cfg.len := by
  decide
theorem witness_DeserAfterSerReproduces : (State.resetOf (inst 3 9)).storage.wf = true ∧
    (State.resetOf (inst 3 9)).fault = false ∧ [1#8, 2#8, 3#8, 4#8].length = (State.resetOf (inst 3 9)).cfg.nbytes ∧
    halted.fault = true := by decide
theorem witness_DeserAfterSerReproduces_inv : (State.resetOf (inst 3 9)).Inv :=
  { storageWf := rfl, storageInside := rfl, readyClear := fun _ => ⟨rfl, rfl⟩,
    haltedCause := fun h => absurd h (by decide), responseLegal := (by intro _ h; cases h),
    warnIsWrn := rfl, diagTruncates := fun _ h => absurd h (by exact List.not_mem_nil) }
theorem witness_EqualitiesAreConsistent : eqp? demo.cfg demo.storage (bytesOf demo.cfg demo.storage) = some true ∧
    canonical demo.cfg demo.storage = true ∧
    eqa? demo.cfg demo.storage (elementsOf demo.cfg demo.storage) = some true ∧
    (inst 5 8).bits * (inst 5 8).len % 8 = 0 := by decide

end Sys2Proof.Machine.Tests
end

section
/-! PROOFS. The constants of an instance (00_scope.md section 4). -/

namespace Sys2Proof

/-- The partial inverse of `BitWidth.toNat` (rule R5). -/
theorem BitWidth.ofNat?_eq_some_iff {n : Nat} {w : BitWidth} : BitWidth.ofNat? n = some w ↔ w.toNat = n := by
  constructor
  · intro h
    unfold BitWidth.ofNat? at h
    split at h <;> cases h <;> rfl
  · rintro rfl
    cases w <;> rfl

/-- Every number from 1 to 8 is a width (rule R5). -/
theorem BitWidth.exists_toNat_eq {n : Nat} (h1 : 1 ≤ n) (h8 : n ≤ 8) : ∃ w : BitWidth, w.toNat = n := by
  interval_cases n
  exacts [⟨.b1, rfl⟩, ⟨.b2, rfl⟩, ⟨.b3, rfl⟩, ⟨.b4, rfl⟩, ⟨.b5, rfl⟩, ⟨.b6, rfl⟩, ⟨.b7, rfl⟩, ⟨.b8, rfl⟩]

/-- `build?` answers exactly the instance that has the two constants (rules R5, R6). -/
theorem Config.build?_eq_some_iff {b l : Nat} {cfg : Config} :
    Config.build? b l = some cfg ↔ cfg.bits = b ∧ cfg.len = l := by
  constructor
  · intro h
    unfold Config.build? at h
    split at h
    · cases h
    next w hw =>
      split at h
      · cases h
        exact ⟨BitWidth.ofNat?_eq_some_iff.mp hw, rfl⟩
      · cases h
  · rintro ⟨rfl, rfl⟩
    have hw : BitWidth.ofNat? cfg.bits = some cfg.width := BitWidth.ofNat?_eq_some_iff.mpr rfl
    simp [Config.build?, hw, Config.len]

/-- Every legal pair of constants is an instance's (rules R5, R6). -/
theorem Config.exists_bits_len {b l : Nat} (h1 : 1 ≤ b) (h8 : b ≤ 8) (hl : l ≤ 65536) :
    ∃ cfg : Config, cfg.bits = b ∧ cfg.len = l := by
  obtain ⟨w, hw⟩ := BitWidth.exists_toNat_eq h1 h8
  exact ⟨⟨w, l, Nat.lt_succ_of_le hl⟩, hw, rfl⟩

/-- `size` rounds the number of bits up to whole units, and no further (rules R7, R130). -/
theorem size_bounds (b n : Nat) : b * n ≤ 8 * size b n ∧ 8 * size b n < b * n + 8 := by
  unfold size
  omega

end Sys2Proof

namespace Sys2Proof.Machine

/-- `NBYTES` is at most 65536, reached by 65536 elements of 8 bits (rule R7). -/
theorem nbytes_le (cfg : Config) : cfg.nbytes ≤ 65536 := by
  have hprod : cfg.bits * cfg.len ≤ 8 * 65536 := Nat.mul_le_mul (bits_range cfg).2 (len_le cfg)
  have hsize : 8 * cfg.nbytes < cfg.bits * cfg.len + 8 := (size_bounds cfg.bits cfg.len).2
  omega

/-- Settles O8: `build?` answers an instance exactly when one has the two constants, and instances have the legal ones. -/
theorem instancesAreTheLegalOnes : Obligations.InstancesAreTheLegalOnes := by
  unfold Obligations.InstancesAreTheLegalOnes
  refine ⟨fun b l => ?_, fun b l cfg => Config.build?_eq_some_iff.mp, fun cfg => ?_⟩
  · rw [Option.isSome_iff_exists]
    constructor
    · rintro ⟨cfg, h⟩
      obtain ⟨rfl, rfl⟩ := Config.build?_eq_some_iff.mp h
      exact ⟨(bits_range cfg).1, (bits_range cfg).2, len_le cfg⟩
    · rintro ⟨h1, h8, hl⟩
      obtain ⟨cfg, h⟩ := Config.exists_bits_len h1 h8 hl
      exact ⟨cfg, Config.build?_eq_some_iff.mpr h⟩
  · obtain ⟨hle, hlt⟩ := size_bounds cfg.bits cfg.len
    exact ⟨hle, hlt, nbytes_le cfg⟩

end Sys2Proof.Machine
end

section
/-! PROOFS. The 8-bit shifts and their amounts (rules R15, R86). -/

namespace Sys2Proof.Machine

/-- `shl8(x, n) = (x * 2^n) mod 256` (rule R15). -/
theorem toNat_shl8 (x : Byte) (n : Nat) : (shl8 x n).toNat = x.toNat * 2 ^ n % 256 := by
  rw [shl8, BitVec.toNat_shiftLeft, Nat.shiftLeft_eq]

/-- `shr8(x, n) = x div 2^n` (rule R15). -/
theorem toNat_shr8 (x : Byte) (n : Nat) : (shr8 x n).toNat = x.toNat / 2 ^ n := by
  rw [shr8, BitVec.toNat_ushiftRight, Nat.shiftRight_eq_div_pow]

/-- An element starts inside its start unit (rule R80). -/
theorem resolve_offset_le (cfg : Config) (index : Nat) : (resolve cfg index).offset ≤ 7 := by
  simp only [resolve]
  omega

/-- An element spans exactly when its bits run past the end of its start unit (rule R80). -/
theorem resolve_spans_iff (cfg : Config) (index : Nat) :
    (resolve cfg index).spans = true ↔ 8 < (resolve cfg index).offset + cfg.bits :=
  decide_eq_true_iff

/-- An element that does not span ends inside its start unit. -/
theorem resolve_spans_eq_false_iff (cfg : Config) (index : Nat) :
    (resolve cfg index).spans = false ↔ (resolve cfg index).offset + cfg.bits ≤ 8 :=
  decide_eq_false_iff_not.trans Nat.not_lt

/-- Settles O12: with `o <= 7` and `1 <= BITS <= 8`, each amount is at most 7 by linear arithmetic. -/
theorem shiftAmountsBelowEight : Obligations.ShiftAmountsBelowEight := by
  unfold Obligations.ShiftAmountsBelowEight
  refine ⟨fun x n => ⟨toNat_shl8 x n, toNat_shr8 x n⟩, fun cfg index => ?_⟩
  have ho := resolve_offset_le cfg index
  obtain ⟨hb1, hb8⟩ := bits_range cfg
  refine ⟨ho, by omega, hb8, fun hs => ?_, fun hs => ?_⟩
  · rw [resolve_spans_eq_false_iff] at hs
    omega
  · rw [resolve_spans_iff] at hs
    simp only [headWidth]
    omega

end Sys2Proof.Machine
end

section
/-! PROOFS. A step waits or runs the decoded command (rules R10, R11). -/

namespace Sys2Proof

/-- What the 16-bit field `IDX` holds is an index that fits it (rule R63). -/
theorem fitsIndex_idxField (w : CommandWord) : fitsIndex (idxField w).toNat = true :=
  decide_eq_true (idxField w).isLt

/-- A decoded command has an encoding (rules R63, R69): its index or address came out of `IDX`. -/
theorem wellFormed_of_decode {w : CommandWord} {i : Instr} (h : decode w = .command i) : WellFormed i := by
  unfold decode at h
  split at h
  · cases h
  · split at h <;> cases h <;> exact fitsIndex_idxField w

theorem Decoded.command?_eq_some_iff {d : Decoded} {i : Instr} : d.command? = some i ↔ d = .command i := by
  cases d <;> simp [Decoded.command?]

/-- The decoder on the table's number is the decoder on the word of that number (rule R60). -/
theorem decodeTableWord_eq_some_iff {nbits w : Nat} {i : Instr} :
    decodeTableWord nbits w = some i ↔ decode (BitVec.ofNat 32 (w % 2 ^ nbits)) = .command i :=
  Decoded.command?_eq_some_iff

end Sys2Proof

namespace Sys2Proof.Machine

/-- A ready block that is offered nothing waits (log entry 5). -/
theorem step_of_idle {s : State} (hr : s.pins.rst = false) (hf : s.fault = false) (hv : s.pins.cmdValid = false) :
    step s = .next (advanceInputs (waitForCommand s)) := by
  rw [step, portEvent_of_idle hr hf hv]

/-- An accepted word does what `exec` of its command does (rules R10, R69). -/
theorem step_of_command {s : State} {w : CommandWord} {i : Instr} (ha : Accepts s w) (hd : decode w = .command i) :
    step s = finishCommand (exec i s) := by
  rw [step_of_accepts ha, runWord, hd]

/-- Settles O46: the port event is `idle`, and waiting writes the two outputs only. -/
theorem readyBlockWaits : Obligations.ReadyBlockWaits := by
  unfold Obligations.ReadyBlockWaits
  intro s hr hf hv
  exact step_of_idle hr hf hv

/-- Settles O47: a step on an accepted word is `finishCommand` of `exec`, and an offered word is accepted. -/
theorem stepRunsTheDecodedCommand : Obligations.StepRunsTheDecodedCommand := by
  unfold Obligations.StepRunsTheDecodedCommand
  refine ⟨fun s w i ha hd => ?_, fun s nbits w i hf hd => ?_⟩
  · have hstep : step s = finishCommand (exec i s) := step_of_command ha hd
    refine ⟨wellFormed_of_decode hd, fun t he => ?_, fun f he => ?_, fun r he => ?_⟩ <;> rw [hstep, he] <;> rfl
  · rw [withFetchWord_eq_offer]
    exact ⟨accepts_offer _ hf, decodeTableWord_eq_some_iff.mp hd⟩

end Sys2Proof.Machine
end

section
/-! PROOFS. What a command and a step answer, and the invariant (10_state.md sections 1 to 6). -/

namespace Sys2Proof.Machine

variable {s t : State} {i : Instr} {c : Cause}

/-! ### The cause of a word -/

theorem faultCause_of_illegal {cfg : Config} {w : CommandWord} {why : Illegal} (h : decode w = .illegal why) :
    faultCause cfg w = some .illegalCmd := by
  simp [faultCause, h]

theorem faultCause_of_command {cfg : Config} {w : CommandWord} (h : decode w = .command i) :
    faultCause cfg w = rangeFault cfg i := by
  simp [faultCause, h]

/-! ### What a step answers -/

theorem keepsStorage_refl (cfg : Config) (m : Memory) : KeepsStorage cfg m m := ⟨id, id⟩

/-- `t` is `s` after a command that completed (rules R11, R142): a response that is no fault, a storage in the same form and
bounds, and any events of the trace truncations. -/
def Completes (s t : State) : Prop :=
  ∃ (wrn : Bool) (d : Byte) (m : Memory) (e : List (Nat × Byte)),
    (wrn = true → d = 0#8) ∧ KeepsStorage s.cfg s.storage m ∧
    (∀ p ∈ e, p.1 < s.cfg.len ∧ truncates s.cfg p.2 = true) ∧
    t = respond wrn d { s with storage := m, diag := s.diag ++ e }

/-- A command takes its range fault or completes (rule R142). -/
theorem exec_faults_or_completes (h : exec i s = .next t) :
    (∃ c, rangeFault s.cfg i = some c ∧ t = raiseFault c s) ∨ (rangeFault s.cfg i = none ∧ Completes s t) := by
  rcases exec_next_cases h with hf | ⟨hr, b, rfl⟩ | ⟨hr, m, hm, rfl⟩ | ⟨index, value, m, rfl, hlt, htr, hm, rfl⟩
  · exact .inl hf
  · exact .inr ⟨hr, false, b, s.storage, [], nofun, keepsStorage_refl _ _, nofun, by simp⟩
  · exact .inr ⟨hr, false, 0#8, m, [], nofun, hm, nofun, by simp⟩
  · exact .inr ⟨if_neg (Nat.not_le.mpr hlt), true, 0#8, m, [(index, value)], fun _ => rfl, hm, by simp [hlt, htr], rfl⟩

/-- No command changes the constants (rule R27). -/
theorem exec_cfg (h : exec i s = .next t) : t.cfg = s.cfg := by
  rcases exec_faults_or_completes h with ⟨c, -, rfl⟩ | ⟨-, wrn, d, m, e, -, -, -, rfl⟩ <;> rfl

/-- Everything a step can answer: reset, waiting, the fault of the accepted word, or its completion (rules R11, R142). -/
theorem step_next_outcomes (h : step s = .next t) :
    (s.pins.rst = true ∧ t = advanceInputs (applyReset s)) ∨
    (s.fault = false ∧ t = advanceInputs (waitForCommand s)) ∨
    (Accepts s s.pins.cmd ∧ ∃ c, faultCause s.cfg s.pins.cmd = some c ∧ t = advanceInputs (raiseFault c s)) ∨
    (Accepts s s.pins.cmd ∧ ∃ u, Completes s u ∧ t = advanceInputs u) := by
  rcases step_next_cases h with hr | ⟨-, hf, -, rfl⟩ | ⟨ha, ⟨why, hd⟩, rfl⟩ | ⟨ha, i, u, hd, hu, rfl⟩
  · exact .inl hr
  · exact .inr (.inl ⟨hf, rfl⟩)
  · exact .inr (.inr (.inl ⟨ha, .illegalCmd, faultCause_of_illegal hd, rfl⟩))
  · rcases exec_faults_or_completes hu with ⟨c, hc, rfl⟩ | ⟨-, hc⟩
    · exact .inr (.inr (.inl ⟨ha, c, (faultCause_of_command hd).trans hc, rfl⟩))
    · exact .inr (.inr (.inr ⟨ha, u, hc, rfl⟩))

/-- A step with `rst` asserted is a reset (rule R170). -/
theorem step_of_rst (h : s.pins.rst = true) : step s = .next (advanceInputs (applyReset s)) := by
  simp [step, portEvent_of_rst h]

/-! ### The invariant -/

/-- A completed command's response is legal: a warning carries no data (rule R68). -/
theorem legalResponse_completedResponse {wrn : Bool} {d : Byte} (h : wrn = true → d = 0#8) :
    legalResponse (completedResponse wrn d) = true := by
  cases wrn <;> simp_all [legalResponse, completedResponse]

/-- A fault's response is legal (rule R68). -/
theorem legalResponse_faultResponse (c : Cause) : legalResponse (faultResponse c) = true := by
  simp [legalResponse, faultResponse]

theorem inv_resetOf (cfg : Config) : (State.resetOf cfg).Inv where
  storageWf := rfl
  storageInside := rfl
  readyClear _ := ⟨rfl, rfl⟩
  haltedCause := nofun
  responseLegal := nofun
  warnIsWrn := rfl
  diagTruncates := nofun

/-- What the host drives is not in the invariant. -/
theorem inv_advanceInputs (h : s.Inv) : (advanceInputs s).Inv where
  storageWf := h.storageWf
  storageInside := h.storageInside
  readyClear := h.readyClear
  haltedCause := h.haltedCause
  responseLegal := h.responseLegal
  warnIsWrn := h.warnIsWrn
  diagTruncates := h.diagTruncates

/-- Reset sets everything but the trace, which it keeps (rules R30, R170). -/
theorem inv_applyReset (h : s.Inv) : (applyReset s).Inv :=
  { inv_resetOf s.cfg with diagTruncates := h.diagTruncates }

theorem inv_waitForCommand (h : s.Inv) : (waitForCommand s).Inv :=
  { h with responseLegal := nofun, warnIsWrn := rfl }

/-- The fault of the word at the port leaves registers that agree with each other (rules R32, R144). -/
theorem inv_raiseFault (h : s.Inv) (hc : faultCause s.cfg s.pins.cmd = some c) : (raiseFault c s).Inv where
  storageWf := h.storageWf
  storageInside := h.storageInside
  readyClear := nofun
  haltedCause _ := by simp [hc]
  responseLegal := by simp [legalResponse_faultResponse]
  warnIsWrn := by simp
  diagTruncates := h.diagTruncates

/-- A command that a ready block completes keeps the invariant: `FLT = 0` is its latch. -/
theorem inv_of_completes (h : s.Inv) (hf : s.fault = false) (hc : Completes s t) : t.Inv := by
  obtain ⟨wrn, d, m, e, hd, ⟨hwf, hin⟩, he, rfl⟩ := hc
  exact
    { storageWf := hwf h.storageWf
      storageInside := hin h.storageInside
      readyClear := h.readyClear
      haltedCause := h.haltedCause
      responseLegal := by simp [legalResponse_completedResponse hd, hf]
      warnIsWrn := by simp
      diagTruncates := fun p hp => (List.mem_append.mp hp).elim (h.diagTruncates p) (he p) }

/-- Settles O42: each of the four outcomes of a step keeps the invariant. -/
theorem everyStepKeepsTheInvariant : Obligations.EveryStepKeepsTheInvariant := by
  unfold Obligations.EveryStepKeepsTheInvariant
  intro s t hi h
  rcases step_next_outcomes h with ⟨-, rfl⟩ | ⟨-, rfl⟩ | ⟨-, c, hc, rfl⟩ | ⟨⟨-, hf, -, -⟩, u, hu, rfl⟩
  · exact inv_advanceInputs (inv_applyReset hi)
  · exact inv_advanceInputs (inv_waitForCommand hi)
  · exact inv_advanceInputs (inv_raiseFault hi hc)
  · exact inv_advanceInputs (inv_of_completes hi hf hu)

/-- Settles O41: the storage and the trace are empty, the fault registers 0 and the outputs low. -/
theorem resetMeetsTheInvariant : Obligations.ResetMeetsTheInvariant := by
  unfold Obligations.ResetMeetsTheInvariant
  exact ⟨inv_resetOf, inv_resetOf Config.worked⟩

/-! ### The constants, the latch and reset -/

/-- Settles O43: no outcome of a step writes `cfg`, and each keeps the storage inside its bounds. -/
theorem constantsNeverChange : Obligations.ConstantsNeverChange := by
  unfold Obligations.ConstantsNeverChange
  intro s t h
  rcases step_next_outcomes h with ⟨-, rfl⟩ | ⟨-, rfl⟩ | ⟨-, c, -, rfl⟩ | ⟨-, u, hu, rfl⟩
  · exact ⟨rfl, fun _ => rfl⟩
  · exact ⟨rfl, id⟩
  · exact ⟨rfl, id⟩
  · obtain ⟨wrn, d, m, e, -, ⟨-, hin⟩, -, rfl⟩ := hu
    exact ⟨rfl, hin⟩

/-- Settles O38: reset clears the latch, waiting and completing start from `FAULT = 0` and keep the three registers, and
the fault entry records the accepted word. -/
theorem faultLatchIsSticky : Obligations.FaultLatchIsSticky := by
  unfold Obligations.FaultLatchIsSticky
  intro s t h
  rcases step_next_outcomes h with ⟨hr, rfl⟩ | ⟨hf, rfl⟩ | ⟨ha, c, hc, rfl⟩ | ⟨ha, u, hu, rfl⟩
  · exact ⟨fun _ => ⟨hr, rfl⟩, fun _ => rfl, rfl, rfl, nofun, fun _ hr' => absurd hr (ne_true_of_eq_false hr')⟩
  · have hlow : s.fault ≠ true := ne_true_of_eq_false hf
    exact ⟨(absurd · hlow), fun _ => hf, rfl, rfl, (absurd · hlow), fun _ _ => ⟨rfl, rfl⟩⟩
  · obtain ⟨hr, hf, -⟩ := id ha
    have hlow : s.fault ≠ true := ne_true_of_eq_false hf
    have hnorst : s.pins.rst ≠ true := ne_true_of_eq_false hr
    exact ⟨(absurd · hlow), (absurd · hnorst), rfl, rfl, fun _ => ⟨c, ha, hc, rfl, rfl, rfl⟩, nofun⟩
  · obtain ⟨-, hf, -⟩ := ha
    have hlow : s.fault ≠ true := ne_true_of_eq_false hf
    obtain ⟨wrn, d, m, e, -, -, -, rfl⟩ := hu
    exact ⟨(absurd · hlow), fun _ => hf, rfl, rfl, (absurd · hlow), fun _ _ => ⟨rfl, rfl⟩⟩

/-- Settles O39: the next state is `applyReset`, whose empty storage list reads 0 everywhere. -/
theorem resetLeavesZero : Obligations.ResetLeavesZero := by
  unfold Obligations.ResetLeavesZero
  intro s hr
  exact ⟨_, step_of_rst hr, unitAt_nil, rfl, rfl, rfl, rfl, rfl, rfl, rfl⟩

end Sys2Proof.Machine
end

section
/-! PROOFS. The outputs and the trace decide nothing (10_state.md section 4). -/

namespace Sys2Proof.Machine

/-- The same block with other outputs and another trace. -/
def withOutputs (rsp : Option ResponseWord) (warn : Bool) (diag : List (Nat × Byte)) (s : State) : State :=
  { s with rsp := rsp, warn := warn, diag := diag }

/-- Two outcomes that differ in the trace alone, to which both append the same events; a refusal is like nothing. -/
def AlikeUpToTrace (diag diag' : List (Nat × Byte)) : (o o' : Host.Outcome State Fault Refusal) → Prop
  | .next t, o' => ∃ e, t.diag = diag ++ e ∧ o' = .next { t with diag := diag' ++ e }
  | .fault f, o' => o' = .fault f
  | .refused _, _ => False

section

variable (rsp : Option ResponseWord) (warn : Bool) (diag : List (Nat × Byte)) (s : State)

/-- Outcomes that append no event are alike. -/
theorem alike_of_diag_eq {t : State} (h : t.diag = s.diag) :
    AlikeUpToTrace s.diag diag (.next t) (.next { t with diag := diag }) :=
  ⟨[], by simp [h], by simp⟩

/-- Alike branches under one condition are alike. -/
theorem alike_ite {p : Prop} [Decidable p] {d : List (Nat × Byte)} {o₁ o₂ o₁' o₂' : Host.Outcome State Fault Refusal}
    (h₁ : AlikeUpToTrace d diag o₁ o₁') (h₂ : AlikeUpToTrace d diag o₂ o₂') :
    AlikeUpToTrace d diag (if p then o₁ else o₂) (if p then o₁' else o₂') := by
  split
  · exact h₁
  · exact h₂

theorem alike_raiseFault (c : Cause) :
    AlikeUpToTrace s.diag diag (.next (raiseFault c s)) (.next (raiseFault c (withOutputs rsp warn diag s))) :=
  alike_of_diag_eq diag s (raiseFault_diag c s)

theorem alike_completeRead (d : Option Byte) :
    AlikeUpToTrace s.diag diag (completeRead d s) (completeRead d (withOutputs rsp warn diag s)) := by
  cases d with
  | none => rfl
  | some b => exact alike_of_diag_eq diag s (respond_diag false b s)

theorem alike_completeWrite (m : Option Memory) :
    AlikeUpToTrace s.diag diag (completeWrite m s) (completeWrite m (withOutputs rsp warn diag s)) := by
  cases m with
  | none => rfl
  | some m' => exact alike_of_diag_eq diag s (respond_diag false 0#8 { s with storage := m' })

theorem alike_completeWriteWarning (index : Nat) (value : Byte) (m : Option Memory) :
    AlikeUpToTrace s.diag diag (completeWriteWarning index value m s)
      (completeWriteWarning index value m (withOutputs rsp warn diag s)) := by
  cases m with
  | none => rfl
  | some m' => exact ⟨[(index, value)], rfl, rfl⟩

theorem alike_exec (i : Instr) :
    AlikeUpToTrace s.diag diag (exec i s) (exec i (withOutputs rsp warn diag s)) := by
  cases i with
  | get index =>
    exact alike_ite diag (alike_raiseFault rsp warn diag s .indexRange) (alike_completeRead rsp warn diag s _)
  | set index value =>
    exact alike_ite diag (alike_raiseFault rsp warn diag s .indexRange)
      (alike_ite diag (alike_completeWriteWarning rsp warn diag s index value _) (alike_completeWrite rsp warn diag s _))
  | clr index =>
    exact alike_ite diag (alike_raiseFault rsp warn diag s .indexRange) (alike_completeWrite rsp warn diag s _)
  | rdb addr =>
    exact alike_ite diag (alike_raiseFault rsp warn diag s .byteRange) (alike_completeRead rsp warn diag s _)
  | wrb addr byte =>
    exact alike_ite diag (alike_raiseFault rsp warn diag s .byteRange) (alike_completeWrite rsp warn diag s _)

theorem alike_runWord (w : CommandWord) :
    AlikeUpToTrace s.diag diag (runWord w s) (runWord w (withOutputs rsp warn diag s)) := by
  unfold runWord
  cases decode w with
  | command i => exact alike_exec rsp warn diag s i
  | illegal why => exact alike_raiseFault rsp warn diag s .illegalCmd

/-- The host moving on keeps outcomes alike. -/
theorem alike_finishCommand {d : List (Nat × Byte)} {o o' : Host.Outcome State Fault Refusal}
    (h : AlikeUpToTrace d diag o o') : AlikeUpToTrace d diag (finishCommand o) (finishCommand o') := by
  cases o with
  | next t =>
    obtain ⟨e, he, rfl⟩ := h
    exact ⟨e, he, rfl⟩
  | fault f =>
    cases h
    rfl
  | refused r => exact h

/-- What happens at the ports does not depend on the outputs. -/
theorem portEvent_withOutputs : portEvent (withOutputs rsp warn diag s) = portEvent s := rfl

/-- A step from a state with other outputs and another trace is alike. -/
theorem alike_step : AlikeUpToTrace s.diag diag (step s) (step (withOutputs rsp warn diag s)) := by
  unfold step
  rw [portEvent_withOutputs]
  cases portEvent s with
  | reset => exact alike_of_diag_eq diag s (applyReset_diag s)
  | stuck => rfl
  | idle => exact alike_of_diag_eq diag s (waitForCommand_diag s)
  | accept w => exact alike_finishCommand diag (alike_runWord rsp warn diag s w)

end

/-- Settles O44: the two steps are alike, case by case of the first one's outcome. -/
theorem outputsAreNeverRead : Obligations.OutputsAreNeverRead := by
  unfold Obligations.OutputsAreNeverRead
  intro s rsp' warn' diag'
  have h := alike_step rsp' warn' diag' s
  refine ⟨fun t ht => ?_, fun f hf => ?_, fun r hr => ?_⟩
  · rw [ht] at h
    exact h
  · rw [hf] at h
    exact h
  · rw [hr] at h
    exact h

end Sys2Proof.Machine
end

section
/-! PROOFS. The bits of an element, and every bit of the storage after an element is written (rules R42, R46, R100). -/

namespace Sys2Proof.Machine

/-! ### The bits of an element -/

/-- The first bit of an element, by its unit and offset (rule R80). -/
theorem bitOffset_eq (cfg : Config) (i : Nat) :
    bitOffset cfg i = 8 * (resolve cfg i).unit + (resolve cfg i).offset := by
  simp only [resolve]
  omega

theorem inElement_iff {cfg : Config} {i abs : Nat} :
    inElement cfg i abs = true ↔ bitOffset cfg i ≤ abs ∧ abs < bitOffset cfg i + cfg.bits := by
  simp [inElement]

/-- A unit that holds a bit of an element is one its commands write (rule R46). -/
theorem writesUnit_of_inElement {cfg : Config} {i a k : Nat} (hk : k < 8) (h : inElement cfg i (8 * a + k) = true) :
    writesUnit cfg i a = true := by
  rw [inElement_iff, bitOffset_eq] at h
  have ho := resolve_offset_le cfg i
  have hb := bits_range cfg
  by_cases ha : a = (resolve cfg i).unit
  · simp [writesUnit, ha]
  · have hspan : (resolve cfg i).spans = true := (resolve_spans_iff cfg i).mpr (by omega)
    have hnext : a = (resolve cfg i).unit + 1 := by omega
    simp [writesUnit, hspan, hnext]

/-- An element in range ends where the pad bits begin or before (rules R45, R81). -/
theorem bitOffset_add_bits_le {cfg : Config} {i : Nat} (h : i < cfg.len) :
    bitOffset cfg i + cfg.bits ≤ cfg.bits * cfg.len :=
  calc bitOffset cfg i + cfg.bits = cfg.bits * (i + 1) := by rw [bitOffset, Nat.mul_comm, Nat.mul_succ]
    _ ≤ cfg.bits * cfg.len := Nat.mul_le_mul_left _ h

/-! ### Writing and clearing an element -/

theorem updateOne_eq_some {cfg : Config} {m m' : Memory} {u : Nat} {f : Byte → Byte} :
    updateOne cfg m u f = some m' ↔ u < cfg.nbytes ∧ m' = m.setUnit u (f (m.unitAt u)) := by
  rw [updateOne_eq]
  split <;> simp_all [eq_comm]

theorem updateTwo_eq_some {cfg : Config} {m m' : Memory} {u : Nat} {f g : Byte → Byte} :
    updateTwo cfg m u f g = some m' ↔
      u + 1 < cfg.nbytes ∧ m' = (m.setUnit u (f (m.unitAt u))).setUnit (u + 1) (g (m.unitAt (u + 1))) := by
  rw [updateTwo_eq]
  split <;> simp_all [eq_comm]

/-- CLR's clearing is writing the value 0 (rules R106, R108). -/
theorem clearElement_eq_writeElement_zero (cfg : Config) (m : Memory) (i : Nat) :
    clearElement cfg m i = writeElement cfg m i 0#8 := by
  simp [clearElement, writeElement, shl8, shr8]

/-- The value has no bit at or above `BITS`. -/
def FitsWidth (cfg : Config) (v : Byte) : Prop := ∀ k, cfg.bits ≤ k → v.getLsbD k = false

theorem fitsWidth_zero (cfg : Config) : FitsWidth cfg 0#8 := fun _ _ => BitVec.getLsbD_zero

theorem fitsWidth_truncated (cfg : Config) (value : Byte) : FitsWidth cfg (truncated cfg value) := fun k hk => by
  simp [getLsbD_truncated, Nat.not_lt.mpr hk]

/-- The unit of an element that does not span, after the write: bit `p` from the left is the value's inside the element
and the old one outside (rule R100). -/
theorem getLsbD_writtenWhole {cfg : Config} {o p : Nat} (a : Byte) {v : Byte} (ho : o + cfg.bits ≤ 8) (hv : FitsWidth cfg v)
    (hp : p < 8) :
    (clearWhole cfg o a ||| shl8 v (8 - o - cfg.bits)).getLsbD (7 - p) =
      if o ≤ p ∧ p < o + cfg.bits then v.getLsbD (cfg.bits - 1 - (p - o)) else a.getLsbD (7 - p) := by
  rw [BitVec.getLsbD_or, getLsbD_clearWhole cfg ho, getLsbD_shl8]
  by_cases hl : o ≤ p
  · by_cases hr : p < o + cfg.bits
    · rw [if_pos ⟨hl, hr⟩, show 7 - p - (8 - o - cfg.bits) = cfg.bits - 1 - (p - o) by omega]
      simp [show 8 - o - cfg.bits ≤ 7 - p ∧ 7 - p < 8 - o by omega, show 7 - p < 8 by omega]
    · simp [hr, show ¬ 8 - o - cfg.bits ≤ 7 - p by omega, show 7 - p < 8 - o - cfg.bits by omega]
  · simp [hl, show ¬ 7 - p < 8 - o by omega, hv (7 - p - (8 - o - cfg.bits)) (by omega)]

/-- The start unit of a spanning element after the write (rule R100). -/
theorem getLsbD_writtenTail {cfg : Config} {o p : Nat} (a : Byte) {v : Byte} (ho : o ≤ 7) (hs : 8 < o + cfg.bits)
    (hv : FitsWidth cfg v) (hp : p < 8) :
    (clearTail (8 - o) a ||| shr8 v (o + cfg.bits - 8)).getLsbD (7 - p) =
      if o ≤ p then v.getLsbD (cfg.bits - 1 - (p - o)) else a.getLsbD (7 - p) := by
  rw [BitVec.getLsbD_or, getLsbD_clearTail (Nat.sub_le 8 o), getLsbD_shr8]
  by_cases hl : o ≤ p
  · rw [if_pos hl, show o + cfg.bits - 8 + (7 - p) = cfg.bits - 1 - (p - o) by omega]
    simp [show 7 - p < 8 - o by omega]
  · simp [hl, show ¬ 7 - p < 8 - o by omega, hv (o + cfg.bits - 8 + (7 - p)) (by omega)]

/-- The second unit of a spanning element after the write (rule R100). -/
theorem getLsbD_writtenHead {cfg : Config} {o p : Nat} (b : Byte) {v : Byte} (ho : o ≤ 7) (hs : 8 < o + cfg.bits)
    (hp : p < 8) :
    (clearHead (o + cfg.bits - 8) b ||| shl8 v (8 - (o + cfg.bits - 8))).getLsbD (7 - p) =
      if p + 8 < o + cfg.bits then v.getLsbD (cfg.bits - 1 - (p + 8 - o)) else b.getLsbD (7 - p) := by
  have hb := bits_range cfg
  rw [BitVec.getLsbD_or, getLsbD_clearHead (by omega), getLsbD_shl8]
  by_cases hr : p + 8 < o + cfg.bits
  · rw [if_pos hr, show 7 - p - (8 - (o + cfg.bits - 8)) = cfg.bits - 1 - (p + 8 - o) by omega]
    simp [show ¬ 7 - p < 8 - (o + cfg.bits - 8) by omega, show 7 - p < 8 by omega]
  · simp [hr, show 7 - p < 8 - (o + cfg.bits - 8) by omega]

/-- Every bit of the storage after an element is written: the element's bits are the value's, most significant first, and
the others are as they were (rules R42, R100, R104). -/
theorem storageBit_writeElement {cfg : Config} {m m' : Memory} {i : Nat} {v : Byte} (hw : m.wf = true)
    (hv : FitsWidth cfg v) (h : writeElement cfg m i v = some m') (abs : Nat) :
    storageBit m' abs =
      if inElement cfg i abs then v.getLsbD (cfg.bits - 1 - (abs - bitOffset cfg i)) else storageBit m abs := by
  have ho := resolve_offset_le cfg i
  have hb := bits_range cfg
  have hp : abs % 8 < 8 := Nat.mod_lt _ (by decide)
  simp only [inElement_iff, bitOffset_eq]
  cases hs : (resolve cfg i).spans with
  | false =>
    have hin := (resolve_spans_eq_false_iff cfg i).mp hs
    simp only [writeElement, hs] at h
    obtain ⟨-, rfl⟩ := updateOne_eq_some.mp h
    rw [storageBit_setUnit _ _ _ hw]
    by_cases hau : abs / 8 = (resolve cfg i).unit
    · rw [if_pos hau, getLsbD_writtenWhole _ hin hv hp]
      exact if_congr (by omega) (congrArg v.getLsbD (by omega)) (by rw [storageBit, hau])
    · rw [if_neg hau, if_neg (by omega)]
  | true =>
    have hout := (resolve_spans_iff cfg i).mp hs
    simp only [writeElement, hs, if_true, tailWidth, headWidth] at h
    obtain ⟨-, rfl⟩ := updateTwo_eq_some.mp h
    rw [storageBit_setUnit _ _ _ (wf_setUnit _ _ hw), storageBit_setUnit _ _ _ hw]
    by_cases hau' : abs / 8 = (resolve cfg i).unit + 1
    · rw [if_pos hau', getLsbD_writtenHead _ ho hout hp]
      exact if_congr (by omega) (congrArg v.getLsbD (by omega)) (by rw [storageBit, hau'])
    by_cases hau : abs / 8 = (resolve cfg i).unit
    · rw [if_neg hau', if_pos hau, getLsbD_writtenTail _ ho hout hv hp]
      exact if_congr (by omega) (congrArg v.getLsbD (by omega)) (by rw [storageBit, hau])
    · rw [if_neg hau', if_neg hau, if_neg (by omega)]

end Sys2Proof.Machine
end

section
/-! PROOFS. What each command does to the storage, and which units it changes (20_memory.md section 3). -/

namespace Sys2Proof

/-- The index or address of a command, the operand `IDX` carries (rules R63, R69). -/
def Instr.operand : Instr → Nat
  | .get index => index
  | .set index _ => index
  | .clr index => index
  | .rdb addr => addr
  | .wrb addr _ => addr

/-- A word that decodes to a command carries its opcode in `OP` and its operand in `IDX` (rules R61, R62, R69). -/
theorem fields_of_decode {w : CommandWord} {i : Instr} (h : decode w = .command i) :
    opField w = i.opcode ∧ (idxField w).toNat = i.operand := by
  unfold decode at h
  split at h
  · cases h
  · split at h <;> cases h <;> exact ⟨BitVec.eq_of_toNat_eq ‹(opField w).toNat = _›, rfl⟩

end Sys2Proof

namespace Sys2Proof.Machine

/-! ### What each command does to the storage -/

variable {s t : State} {i : Instr}

/-- A command that fails its range check takes the fault of the rule (rules R84, R122, R142). -/
theorem exec_of_rangeFault {c : Cause} (h : rangeFault s.cfg i = some c) : exec i s = .next (raiseFault c s) := by
  cases i <;>
  · obtain ⟨hout, ⟨⟩⟩ := Option.ite_none_right_eq_some.mp h
    exact if_pos (decide_eq_true hout)

theorem exec_get_of_lt {index : Nat} (h : index < s.cfg.len) :
    exec (.get index) s = completeRead (readElement s.cfg s.storage index) s :=
  if_neg (by simpa [indexOutOfRange] using h)

theorem exec_set_of_lt {index : Nat} (value : Byte) (h : index < s.cfg.len) :
    exec (.set index value) s =
      if truncates s.cfg value then
        completeWriteWarning index value (writeElement s.cfg s.storage index (truncated s.cfg value)) s
      else completeWrite (writeElement s.cfg s.storage index (truncated s.cfg value)) s :=
  if_neg (by simpa [indexOutOfRange] using h)

theorem exec_clr_of_lt {index : Nat} (h : index < s.cfg.len) :
    exec (.clr index) s = completeWrite (clearElement s.cfg s.storage index) s :=
  if_neg (by simpa [indexOutOfRange] using h)

theorem exec_rdb_of_lt {addr : Nat} (h : addr < s.cfg.nbytes) :
    exec (.rdb addr) s = completeRead (memRead s.cfg s.storage addr) s :=
  if_neg (by simpa [addrOutOfRange] using h)

theorem exec_wrb_of_lt {addr : Nat} (byte : Byte) (h : addr < s.cfg.nbytes) :
    exec (.wrb addr byte) s = .next (respond false 0#8 { s with storage := s.storage.setUnit addr byte }) := by
  have hwrb : exec (.wrb addr byte) s = completeWrite (memWrite s.cfg s.storage addr byte) s :=
    if_neg (by simpa [addrOutOfRange] using h)
  rw [hwrb, memWrite_of_lt _ _ h]
  rfl

/-- SET in range writes the truncated value and nothing else of the storage (rule R100). -/
theorem exec_set_storage {index : Nat} {value : Byte} (hlt : index < s.cfg.len) (h : exec (.set index value) s = .next t) :
    writeElement s.cfg s.storage index (truncated s.cfg value) = some t.storage := by
  rw [exec_set_of_lt value hlt] at h
  split at h
  · obtain ⟨m, hm, rfl⟩ := completeWriteWarning_next.mp h
    exact hm
  · obtain ⟨m, hm, rfl⟩ := completeWrite_next.mp h
    exact hm

/-- CLR in range writes the value 0 and nothing else of the storage (rules R106, R108). -/
theorem exec_clr_storage {index : Nat} (hlt : index < s.cfg.len) (h : exec (.clr index) s = .next t) :
    writeElement s.cfg s.storage index 0#8 = some t.storage := by
  rw [exec_clr_of_lt hlt, clearElement_eq_writeElement_zero] at h
  obtain ⟨m, hm, rfl⟩ := completeWrite_next.mp h
  exact hm

/-- A read leaves the storage (rule R46). -/
theorem completeRead_storage {d : Option Byte} (h : completeRead d s = .next t) : t.storage = s.storage := by
  obtain ⟨b, -, rfl⟩ := completeRead_next.mp h
  rfl

/-- All a command can do to the storage: nothing; an element written, by a SET or CLR in range; or a unit written, by a WRB
in range (rule R46). -/
theorem exec_storage_cases (h : exec i s = .next t) :
    t.storage = s.storage ∨
    (∃ index v, (i = .clr index ∨ ∃ value, i = .set index value) ∧ index < s.cfg.len ∧ FitsWidth s.cfg v ∧
      writeElement s.cfg s.storage index v = some t.storage) ∨
    (∃ addr byte, i = .wrb addr byte ∧ addr < s.cfg.nbytes ∧ t.storage = s.storage.setUnit addr byte) := by
  cases hr : rangeFault s.cfg i with
  | some c =>
    rw [exec_of_rangeFault hr] at h
    cases h
    exact .inl rfl
  | none =>
    cases i with
    | get index =>
      have hlt : index < s.cfg.len := by simpa [rangeFault] using hr
      rw [exec_get_of_lt hlt] at h
      exact .inl (completeRead_storage h)
    | set index value =>
      have hlt : index < s.cfg.len := by simpa [rangeFault] using hr
      exact .inr (.inl ⟨index, _, .inr ⟨value, rfl⟩, hlt, fitsWidth_truncated _ _, exec_set_storage hlt h⟩)
    | clr index =>
      have hlt : index < s.cfg.len := by simpa [rangeFault] using hr
      exact .inr (.inl ⟨index, _, .inl rfl, hlt, fitsWidth_zero _, exec_clr_storage hlt h⟩)
    | rdb addr =>
      have hlt : addr < s.cfg.nbytes := by simpa [rangeFault] using hr
      rw [exec_rdb_of_lt hlt] at h
      exact .inl (completeRead_storage h)
    | wrb addr byte =>
      have hlt : addr < s.cfg.nbytes := by simpa [rangeFault] using hr
      rw [exec_wrb_of_lt byte hlt] at h
      cases h
      exact .inr (.inr ⟨addr, byte, rfl, hlt, rfl⟩)

/-! ### The units -/

/-- A unit whose bits are as they were is as it was. -/
theorem unitAt_eq_of_storageBit {m m' : Memory} {a : Nat}
    (h : ∀ k, k < 8 → storageBit m' (8 * a + k) = storageBit m (8 * a + k)) : m'.unitAt a = m.unitAt a := by
  refine BitVec.eq_of_getLsbD_eq fun j hj => ?_
  have hbit := h (7 - j) (by omega)
  simpa only [storageBit, show (8 * a + (7 - j)) / 8 = a by omega, show 7 - (8 * a + (7 - j)) % 8 = j by omega] using hbit

/-- Writing an element changes only the units of `writesUnit` (rule R46). -/
theorem unitAt_writeElement_other {cfg : Config} {m m' : Memory} {index a : Nat} {v : Byte} (hw : m.wf = true)
    (hv : FitsWidth cfg v) (h : writeElement cfg m index v = some m') (ha : writesUnit cfg index a ≠ true) :
    m'.unitAt a = m.unitAt a :=
  unitAt_eq_of_storageBit fun k hk => by
    rw [storageBit_writeElement hw hv h, if_neg (mt (writesUnit_of_inElement hk) ha)]

/-- A command that changes a unit passed its range check, and is a SET or CLR that writes the unit or a WRB of it
(rule R46). -/
theorem exec_changes_unit {a : Nat} (hw : s.storage.wf = true) (h : exec i s = .next t)
    (hne : t.storage.unitAt a ≠ s.storage.unitAt a) :
    rangeFault s.cfg i = none ∧ ((i.opcode ∈ [0x2#4, 0x3#4] ∧ writesUnit s.cfg i.operand a = true) ∨
      (i.opcode = 0x5#4 ∧ a = i.operand)) := by
  rcases exec_storage_cases h with hsame | ⟨index, v, hi, hlt, hv, hm⟩ | ⟨addr, byte, rfl, hlt, hm⟩
  · exact absurd (by rw [hsame]) hne
  · have hwrites : writesUnit s.cfg index a = true := by
      by_contra hnw
      exact hne (unitAt_writeElement_other hw hv hm hnw)
    rcases hi with rfl | ⟨value, rfl⟩
    · exact ⟨if_neg (Nat.not_le.mpr hlt), .inl ⟨by simp [Instr.opcode], hwrites⟩⟩
    · exact ⟨if_neg (Nat.not_le.mpr hlt), .inl ⟨by simp [Instr.opcode], hwrites⟩⟩
  · have haddr : a = addr := by
      by_contra hna
      exact hne (by rw [hm, unitAt_setUnit_other byte hw hna])
    exact ⟨if_neg (Nat.not_le.mpr hlt), .inr ⟨rfl, haddr⟩⟩

/-- Settles O32: a step that changes a unit and is no reset runs the accepted word's command, whose opcode and operand are
the word's fields. -/
theorem unitsChangeOnlyByTheirCommands : Obligations.UnitsChangeOnlyByTheirCommands := by
  unfold Obligations.UnitsChangeOnlyByTheirCommands
  intro s t a hw hrst h hne
  rcases step_next_cases h with ⟨hr, -⟩ | ⟨-, -, -, rfl⟩ | ⟨-, -, rfl⟩ | ⟨ha, i, u, hd, hu, rfl⟩
  · exact absurd hr (ne_true_of_eq_false hrst)
  · exact absurd rfl hne
  · exact absurd rfl hne
  · obtain ⟨hop, hidx⟩ := fields_of_decode hd
    rw [faultCause_of_command hd, hop, hidx]
    exact ⟨ha, exec_changes_unit hw hu hne⟩

end Sys2Proof.Machine
end

section
/-! PROOFS. The pad bits and canonical storage (10_state.md section 5). -/

namespace Sys2Proof.Machine

/-- A byte's `n` low bits are zero exactly when each of them is. -/
theorem toNat_mod_two_pow_eq_zero_iff (x : Byte) (n : Nat) : x.toNat % 2 ^ n = 0 ↔ ∀ k, k < n → x.getLsbD k = false := by
  constructor
  · intro h k hk
    have hbit : (x.toNat % 2 ^ n).testBit k = false := by simp [h]
    simpa [Nat.testBit_mod_two_pow, hk, BitVec.testBit_toNat] using hbit
  · intro h
    refine Nat.eq_of_testBit_eq fun k => ?_
    by_cases hk : k < n
    · simpa [Nat.testBit_mod_two_pow, hk, BitVec.testBit_toNat] using h k hk
    · simp [Nat.testBit_mod_two_pow, hk]

/-- `Canon` says that every pad bit is 0 (rules R31, R45). -/
theorem canonical_iff (cfg : Config) (m : Memory) :
    canonical cfg m = true ↔ ∀ abs, cfg.bits * cfg.len ≤ abs → abs < 8 * cfg.nbytes → storageBit m abs = false := by
  have hsize : cfg.bits * cfg.len ≤ 8 * cfg.nbytes ∧ 8 * cfg.nbytes < cfg.bits * cfg.len + 8 := size_bounds _ _
  have hpad : cfg.padBits = 8 * cfg.nbytes - cfg.bits * cfg.len := rfl
  by_cases hn : cfg.nbytes = 0
  · simp [canonical, hn]
  · simp only [canonical, hn, decide_false, Bool.false_or, decide_eq_true_eq, toNat_mod_two_pow_eq_zero_iff]
    constructor
    · intro h abs hlo hhi
      rw [storageBit, show abs / 8 = cfg.nbytes - 1 by omega]
      exact h _ (by omega)
    · intro h k hk
      have hbit := h (8 * cfg.nbytes - 1 - k) (by omega) (by omega)
      rwa [storageBit, show (8 * cfg.nbytes - 1 - k) / 8 = cfg.nbytes - 1 by omega,
        show 7 - (8 * cfg.nbytes - 1 - k) % 8 = k by omega] at hbit

/-- Storages with the same pad bits are canonical alike. -/
theorem canonical_congr {cfg : Config} {m m' : Memory}
    (h : ∀ abs, cfg.bits * cfg.len ≤ abs → storageBit m' abs = storageBit m abs) : canonical cfg m' = canonical cfg m := by
  rw [Bool.eq_iff_iff, canonical_iff, canonical_iff]
  refine forall₂_congr fun abs hlo => ?_
  rw [h abs hlo]

/-- Writing an element in range leaves the pad bits (rules R31, R45). -/
theorem canonical_writeElement {cfg : Config} {m m' : Memory} {index : Nat} {v : Byte} (hw : m.wf = true)
    (hlt : index < cfg.len) (hv : FitsWidth cfg v) (h : writeElement cfg m index v = some m') :
    canonical cfg m' = canonical cfg m := by
  refine canonical_congr fun abs hlo => ?_
  have hend := bitOffset_add_bits_le hlt
  rw [storageBit_writeElement hw hv h, if_neg (by rw [inElement_iff]; omega)]

/-- Writing a unit decides the pad bits in the last unit, and leaves them in any other (rule R123). -/
theorem canonical_setUnit {cfg : Config} {m : Memory} {addr : Nat} (byte : Byte) (hw : m.wf = true) (hlt : addr < cfg.nbytes) :
    canonical cfg (m.setUnit addr byte) =
      if addr = cfg.nbytes - 1 then decide (byte.toNat % 2 ^ cfg.padBits = 0) else canonical cfg m := by
  have hn : cfg.nbytes ≠ 0 := by omega
  simp only [canonical, unitAt_setUnit _ _ _ hw, hn, decide_false, Bool.false_or, eq_comm (a := cfg.nbytes - 1)]
  split <;> rfl

/-- Settles O29: the pad bits lie in the last unit and in no element, so of the commands WRB alone reaches them. -/
theorem canonicalStorage : Obligations.CanonicalStorage := by
  unfold Obligations.CanonicalStorage
  refine ⟨canonical_iff, fun s t hr h => ?_, fun s t i hw h hnowrb => ?_, fun s addr byte hw hlt => ?_⟩
  · rw [step_of_rst hr] at h
    cases h
    exact (canonical_iff _ _).mpr fun abs _ _ => by simp [storageBit, unlistedUnit]
  · rw [exec_cfg h]
    rcases exec_storage_cases h with hsame | ⟨index, v, -, hlt, hv, hm⟩ | ⟨addr, byte, rfl, -, -⟩
    · rw [hsame]
    · exact canonical_writeElement hw hlt hv hm
    · exact absurd rfl (hnowrb addr byte)
  · exact ⟨_, exec_wrb_of_lt byte hlt, canonical_setUnit byte hw hlt⟩

end Sys2Proof.Machine
end

section
/-! PROOFS. The storage as one bit string: pad bits, the two views and idempotence (20_memory.md). -/

namespace Sys2Proof.Machine

variable {s t : State} {i : Instr} {c : Cause}

/-! ### The pad bits -/

/-- The pad bits fill the last unit after the elements, and are fewer than a unit (rules R7, R45). -/
theorem padBits_spec (cfg : Config) : cfg.bits * cfg.len + cfg.padBits = 8 * cfg.nbytes ∧ cfg.padBits ≤ 7 := by
  have hsize : cfg.bits * cfg.len ≤ 8 * cfg.nbytes ∧ 8 * cfg.nbytes < cfg.bits * cfg.len + 8 := size_bounds _ _
  have hpad : cfg.padBits = 8 * cfg.nbytes - cfg.bits * cfg.len := rfl
  omega

/-- The one element a bit offset can lie in is the quotient by `BITS` (rule R42). -/
theorem inElement_iff_eq_div {cfg : Config} {i abs : Nat} : inElement cfg i abs = true ↔ i = abs / cfg.bits := by
  have hpos : 0 < cfg.bits := (bits_range cfg).1
  rw [inElement_iff, bitOffset, ← Nat.succ_mul, ← Nat.le_div_iff_mul_le hpos, ← Nat.div_lt_iff_lt_mul hpos]
  omega

/-- Settles O14: the elements in range end where the pad bits begin, and the offset's quotient by `BITS` is its element. -/
theorem padBitsBelongToNoElement : Obligations.PadBitsBelongToNoElement := by
  unfold Obligations.PadBitsBelongToNoElement
  intro cfg
  obtain ⟨hsum, hpad⟩ := padBits_spec cfg
  refine ⟨hsum, hpad, fun abs hlo hhi => ⟨by omega, by omega, fun i hi => ?_⟩, fun abs hlt => ?_⟩
  · have hend := bitOffset_add_bits_le hi
    rw [Bool.eq_false_iff, ne_eq, inElement_iff]
    omega
  · exact ⟨abs / cfg.bits, Nat.div_lt_of_lt_mul hlt, inElement_iff_eq_div.mpr rfl, fun j => inElement_iff_eq_div.mp⟩

/-! ### The two views -/

/-- A unit holds the eight storage bits from `8 * a`, most significant first (rule R41). -/
theorem getLsbD_unitAt (m : Memory) (a : Nat) {k : Nat} (hk : k < 8) :
    (m.unitAt a).getLsbD (7 - k) = storageBit m (8 * a + k) := by
  rw [storageBit, show (8 * a + k) / 8 = a by omega, show (8 * a + k) % 8 = k by omega]

/-- An element in range lies inside the storage (rule R81). -/
theorem resolve_inside {cfg : Config} {i : Nat} (h : i < cfg.len) :
    8 * (resolve cfg i).unit + (resolve cfg i).offset + cfg.bits ≤ 8 * cfg.nbytes := by
  have hend := bitOffset_add_bits_le h
  obtain ⟨hsum, -⟩ := padBits_spec cfg
  rw [bitOffset_eq] at hend
  omega

/-- Bit `k` of an element from the left, as its start unit gives it: the storage bit, or 0 past the unit's end (rule R90). -/
theorem getLsbD_startFragment_unitAt {cfg : Config} {o k : Nat} (m : Memory) (u : Nat) (hk : k < cfg.bits) :
    (startFragment cfg o (m.unitAt u)).getLsbD (cfg.bits - 1 - k) =
      if o + k < 8 then storageBit m (8 * u + (o + k)) else false := by
  have hb := bits_range cfg
  rw [getLsbD_startFragment, show 8 - cfg.bits + (cfg.bits - 1 - k) = 7 - k by omega]
  by_cases hin : o + k < 8
  · rw [if_pos hin, ← getLsbD_unitAt m u hin, show 7 - k - o = 7 - (o + k) by omega]
    simp [show cfg.bits - 1 - k < cfg.bits by omega, show ¬ 7 - k < o by omega]
  · simp [hin, show 7 - k < o by omega]

/-- Bit `k` of a spanning element from the left, as the next unit gives it: the storage bit, or 0 before the unit's start
(rule R90). -/
theorem getLsbD_nextFragment_unitAt {cfg : Config} {o k : Nat} (m : Memory) (u : Nat) (ho : o ≤ 7) (hk : k < cfg.bits) :
    (nextFragment cfg o (m.unitAt (u + 1))).getLsbD (cfg.bits - 1 - k) =
      if o + k < 8 then false else storageBit m (8 * u + (o + k)) := by
  have hb := bits_range cfg
  rw [getLsbD_nextFragment, show 16 - (o + cfg.bits) + (cfg.bits - 1 - k) = 15 - (o + k) by omega]
  by_cases hin : o + k < 8
  · rw [if_pos hin, BitVec.getLsbD_of_ge _ _ (by omega)]
  · rw [if_neg hin, show 8 * u + (o + k) = 8 * (u + 1) + (o + k - 8) by omega, ← getLsbD_unitAt _ _ (by omega),
      show 7 - (o + k - 8) = 15 - (o + k) by omega]

/-- Reading an element in range gives its storage bits, most significant first (rules R42, R90). -/
theorem readElement_of_lt {cfg : Config} {i : Nat} (m : Memory) (h : i < cfg.len) :
    ∃ r, readElement cfg m i = some r ∧
      ∀ k, k < cfg.bits → r.getLsbD (cfg.bits - 1 - k) = storageBit m (bitOffset cfg i + k) := by
  have hin := resolve_inside h
  have ho := resolve_offset_le cfg i
  have hb := bits_range cfg
  cases hs : (resolve cfg i).spans with
  | false =>
    have hfit := (resolve_spans_eq_false_iff cfg i).mp hs
    refine ⟨_, readElement_single m hs (by omega), fun k hk => ?_⟩
    rw [bitOffset_eq, Nat.add_assoc, getLsbD_startFragment_unitAt m _ hk, if_pos (by omega)]
  | true =>
    have hout := (resolve_spans_iff cfg i).mp hs
    refine ⟨_, readElement_spanning m hs (by omega), fun k hk => ?_⟩
    rw [bitOffset_eq, Nat.add_assoc, BitVec.getLsbD_or, getLsbD_startFragment_unitAt m _ hk,
      getLsbD_nextFragment_unitAt m _ ho hk]
    by_cases hfirst : (resolve cfg i).offset + k < 8
    · rw [if_pos hfirst, if_pos hfirst, Bool.or_false]
    · rw [if_neg hfirst, if_neg hfirst, Bool.false_or]

/-- GET in range completes with the element's storage bits and nothing else changes (rules R42, R90, R92). -/
theorem exec_get_next {index : Nat} (h : index < s.cfg.len) :
    ∃ r, exec (.get index) s = .next (respond false r s) ∧
      ∀ k, k < s.cfg.bits → r.getLsbD (s.cfg.bits - 1 - k) = storageBit s.storage (bitOffset s.cfg index + k) := by
  obtain ⟨r, hread, hbits⟩ := readElement_of_lt s.storage h
  exact ⟨r, by rw [exec_get_of_lt h, hread, completeRead], hbits⟩

/-- RDB in range completes with the unit and nothing else changes (rule R120). -/
theorem exec_rdb_next {addr : Nat} (h : addr < s.cfg.nbytes) :
    exec (.rdb addr) s = .next (respond false (s.storage.unitAt addr) s) := by
  rw [exec_rdb_of_lt h, memRead_of_lt _ h, completeRead]

/-- The bits of a truncated value are those of its remainder (rule R101). -/
theorem getLsbD_truncated_eq_testBit (cfg : Config) (value : Byte) (k : Nat) :
    (truncated cfg value).getLsbD k = (value.toNat % 2 ^ cfg.bits).testBit k := by
  rw [getLsbD_truncated, Nat.testBit_mod_two_pow, BitVec.testBit_toNat]

/-- Settles O30: RDB and GET both answer storage bits, and SET and WRB each write those of one element or one unit. -/
theorem viewsShowTheSameBits : Obligations.ViewsShowTheSameBits := by
  unfold Obligations.ViewsShowTheSameBits
  refine ⟨fun s t index a value hw hlt ha hset => ?_, fun s t i a byte hw hlt ha hwrb => ?_⟩
  · have hrdb : exec (.rdb a) t = .next (respond false (t.storage.unitAt a) t) :=
      exec_rdb_next (by rwa [exec_cfg hset])
    refine ⟨_, _, hrdb, rfl, fun k hk => ?_⟩
    rw [rspData_completedResponse, getLsbD_unitAt _ _ hk,
      storageBit_writeElement hw (fitsWidth_truncated _ _) (exec_set_storage hlt hset), getLsbD_truncated_eq_testBit,
      bitOffset]
  · rw [exec_wrb_of_lt byte ha] at hwrb
    cases hwrb
    obtain ⟨r, hget, hbits⟩ :=
      exec_get_next (s := respond false 0#8 { s with storage := s.storage.setUnit a byte }) (index := i) hlt
    refine ⟨_, _, hget, rfl, fun k hk => ?_⟩
    rw [rspData_completedResponse]
    exact (hbits k hk).trans (storageBit_setUnit _ _ _ hw)

/-! ### Issuing a command twice -/

/-- Storages in canonical form with the same bits are one list. -/
theorem eq_of_storageBit {m m' : Memory} (hm : m.wf = true) (hm' : m'.wf = true)
    (h : ∀ abs, storageBit m' abs = storageBit m abs) : m' = m :=
  eq_of_unitAt hm' hm fun _ => unitAt_eq_of_storageBit fun _ _ => h _

/-- Writing an element again with the same value changes nothing. -/
theorem writeElement_twice {cfg : Config} {m m' m'' : Memory} {index : Nat} {v : Byte} (hw : m.wf = true)
    (hv : FitsWidth cfg v) (h : writeElement cfg m index v = some m') (h' : writeElement cfg m' index v = some m'') :
    m'' = m' := by
  have hw' : m'.wf = true := (writeElement_keeps h).1 hw
  refine eq_of_storageBit hw' ((writeElement_keeps h').1 hw') fun abs => ?_
  rw [storageBit_writeElement hw' hv h', storageBit_writeElement hw hv h]
  split <;> rfl

/-- Writing a unit again with the same byte changes nothing. -/
theorem setUnit_twice {m : Memory} (u : Nat) (v : Byte) (hw : m.wf = true) :
    (m.setUnit u v).setUnit u v = m.setUnit u v := by
  have hw' := wf_setUnit u v hw
  refine eq_of_unitAt (wf_setUnit u v hw') hw' fun x => ?_
  rw [unitAt_setUnit u x v hw', unitAt_setUnit u x v hw]
  split <;> rfl

/-- Settles O31: a command that writes storage writes a value that does not depend on it. -/
theorem commandsAreIdempotent : Obligations.CommandsAreIdempotent := by
  unfold Obligations.CommandsAreIdempotent
  intro s t u i hw ht hu
  have hcfg : t.cfg = s.cfg := exec_cfg ht
  rcases exec_storage_cases hu with hsame | ⟨index, -, rfl | ⟨value, rfl⟩, hlt, -, -⟩ | ⟨addr, byte, rfl, hlt, hm⟩
  · exact hsame
  · have hsecond := exec_clr_storage hlt hu
    rw [hcfg] at hlt hsecond
    exact writeElement_twice hw (fitsWidth_zero _) (exec_clr_storage hlt ht) hsecond
  · have hsecond := exec_set_storage hlt hu
    rw [hcfg] at hlt hsecond
    exact writeElement_twice hw (fitsWidth_truncated _ _) (exec_set_storage hlt ht) hsecond
  · rw [hcfg] at hlt
    rw [exec_wrb_of_lt byte hlt] at ht
    cases ht
    exact hm.trans (setUnit_twice addr byte hw)

/-! ### The empty instance -/

/-- An accepted word with a cause takes the fault of that cause (rules R142, R143, R144). -/
theorem step_of_faultCause {w : CommandWord} (ha : Accepts s w) (hc : faultCause s.cfg w = some c) :
    step s = .next (advanceInputs (raiseFault c s)) := by
  cases hd : decode w with
  | illegal why =>
    rw [faultCause_of_illegal hd] at hc
    cases hc
    rw [step_of_accepts ha, runWord, hd, finishCommand]
  | command i =>
    rw [faultCause_of_command hd] at hc
    rw [step_of_command ha hd, exec_of_rangeFault hc, finishCommand]

/-- Without elements there are no units (rule R7). -/
theorem nbytes_eq_zero {cfg : Config} (h : cfg.len = 0) : cfg.nbytes = 0 := by
  simp [Config.nbytes, size, h]

/-- With `LEN = 0` no index and no address is in range (rule R48). -/
theorem rangeFault_of_empty {cfg : Config} (h : cfg.len = 0) (i : Instr) : ∃ c, rangeFault cfg i = some c := by
  cases i <;> simp [rangeFault, h, nbytes_eq_zero h]

/-- With `LEN = 0` every word has a cause: its encoding or its range (rules R48, R143). -/
theorem faultCause_of_empty {cfg : Config} (h : cfg.len = 0) (w : CommandWord) : ∃ c, faultCause cfg w = some c := by
  cases hd : decode w with
  | illegal why => exact ⟨_, faultCause_of_illegal hd⟩
  | command i =>
    rw [faultCause_of_command hd]
    exact rangeFault_of_empty h i

/-- Settles O45: with `LEN = 0` every word has a cause, and an accepted word with a cause halts the block. -/
theorem emptyInstanceAlwaysFaults : Obligations.EmptyInstanceAlwaysFaults := by
  unfold Obligations.EmptyInstanceAlwaysFaults
  intro s w hlen ha
  obtain ⟨c, hc⟩ := faultCause_of_empty hlen w
  exact ⟨_, step_of_faultCause ha hc, rfl⟩

end Sys2Proof.Machine
end

section
/-! PROOFS. The decoder and the encoder on the word's fields (30_encoding.md sections 1 to 3). -/

namespace Sys2Proof

/-- The value operand of a command, which SET and WRB alone have (rules R64, R65). -/
def Instr.valueOperand? : Instr → Option Byte
  | .set _ value => some value
  | .wrb _ byte => some byte
  | .get _ => none
  | .clr _ => none
  | .rdb _ => none

/-- A command has an encoding when its operand fits `IDX` (rule R63). -/
theorem wf_eq_fitsIndex_operand (i : Instr) : i.wf = fitsIndex i.operand := by
  cases i <;> rfl

/-- The encoder packs the opcode, the operand and the value, 0 where there is none (rule R69). -/
theorem encode_eq_packCommand (i : Instr) :
    encode i = packCommand i.opcode (BitVec.ofNat 16 i.operand) (i.valueOperand?.getD 0#8) := by
  cases i <;> rfl

/-- The decoder reads `RSV`, `OP` and `IDX`, and `VAL` for the commands that have a value (rules R62, R65, R66). -/
theorem decode_eq_command_iff {w : CommandWord} {i : Instr} :
    decode w = .command i ↔
      rsvField w = 0#4 ∧ opField w = i.opcode ∧ (idxField w).toNat = i.operand ∧
        ∀ v ∈ i.valueOperand?, valField w = v := by
  constructor
  · intro h
    obtain ⟨hop, hidx⟩ := fields_of_decode h
    unfold decode at h
    split at h
    · cases h
    next hrsv =>
      refine ⟨not_not.mp hrsv, hop, hidx, ?_⟩
      split at h <;> cases h <;> simp [Instr.valueOperand?]
  · rintro ⟨hrsv, hop, hidx, hval⟩
    cases i <;> simp_all [decode, Instr.opcode, Instr.operand, Instr.valueOperand?]

/-- A word decodes to a command when `RSV` is zero and `OP` is one of the five opcodes (rule R62). -/
theorem exists_command_iff {w : CommandWord} :
    (∃ i, decode w = .command i) ↔ rsvField w = 0#4 ∧ opField w ∈ [0x1#4, 0x2#4, 0x3#4, 0x4#4, 0x5#4] := by
  constructor
  · rintro ⟨i, h⟩
    obtain ⟨hrsv, hop, -⟩ := decode_eq_command_iff.mp h
    refine ⟨hrsv, ?_⟩
    rw [hop]
    cases i <;> simp [Instr.opcode]
  · rintro ⟨hrsv, hop⟩
    simp only [List.mem_cons, List.not_mem_nil, or_false] at hop
    rcases hop with hop | hop | hop | hop | hop
    · exact ⟨.get _, decode_eq_command_iff.mpr ⟨hrsv, hop, rfl, nofun⟩⟩
    · exact ⟨.set _ _, decode_eq_command_iff.mpr ⟨hrsv, hop, rfl, fun _ => Option.some.inj⟩⟩
    · exact ⟨.clr _, decode_eq_command_iff.mpr ⟨hrsv, hop, rfl, nofun⟩⟩
    · exact ⟨.rdb _, decode_eq_command_iff.mpr ⟨hrsv, hop, rfl, nofun⟩⟩
    · exact ⟨.wrb _ _, decode_eq_command_iff.mpr ⟨hrsv, hop, rfl, fun _ => Option.some.inj⟩⟩

/-- Every other word is illegal (rule R66). -/
theorem exists_illegal_iff {w : CommandWord} :
    (∃ why, decode w = .illegal why) ↔ ¬ (rsvField w = 0#4 ∧ opField w ∈ [0x1#4, 0x2#4, 0x3#4, 0x4#4, 0x5#4]) := by
  rw [← exists_command_iff]
  cases decode w <;> simp

/-- The opcodes that name no command, as rule R66 lists them. -/
theorem opcode_not_mem_iff (op : BitVec 4) :
    op ∉ [0x1#4, 0x2#4, 0x3#4, 0x4#4, 0x5#4] ↔ op = 0#4 ∨ 6 ≤ op.toNat := by
  revert op
  decide

/-- The illegal words by their fields (rule R66). -/
theorem exists_illegal_iff_fields {w : CommandWord} :
    (∃ why, decode w = .illegal why) ↔ opField w = 0#4 ∨ 6 ≤ (opField w).toNat ∨ rsvField w ≠ 0#4 := by
  rw [exists_illegal_iff, not_and_or, opcode_not_mem_iff, or_comm, or_assoc]

/-! ### The round trips -/

/-- Settles O1: every field of the packed word reads back, and the index fits its field. -/
theorem decodeOfEncodeIsTheCommand : Obligations.DecodeOfEncodeIsTheCommand := by
  unfold Obligations.DecodeOfEncodeIsTheCommand
  intro i hwf
  rw [WellFormed, wf_eq_fitsIndex_operand] at hwf
  rw [encode_eq_packCommand, decode_eq_command_iff]
  refine ⟨rsvField_packCommand .., opField_packCommand .., ?_, fun v hv => ?_⟩
  · rw [idxField_packCommand, ofNat_index_toNat hwf]
  · rw [valField_packCommand, Option.mem_def.mp hv, Option.getD_some]

/-- Encoding a decoded word keeps `OP` and `IDX`, with the command's own value in `VAL` (rule R69). -/
theorem encode_of_decode {w : CommandWord} {i : Instr} (h : decode w = .command i) :
    encode i = packCommand (opField w) (idxField w) (i.valueOperand?.getD 0#8) := by
  obtain ⟨-, hop, hidx, -⟩ := decode_eq_command_iff.mp h
  rw [encode_eq_packCommand, hop, ← hidx, BitVec.ofNat_toNat, BitVec.setWidth_eq]

/-- A decoded word whose `VAL` is the command's value, or 0 where it has none, is the command's encoding (rule R69). -/
theorem encode_eq_of_decode {w : CommandWord} {i : Instr} (h : decode w = .command i)
    (hval : valField w = i.valueOperand?.getD 0#8) : encode i = w := by
  obtain ⟨hrsv, -⟩ := decode_eq_command_iff.mp h
  rw [encode_of_decode h, ← hval, ← word_eq_packCommand hrsv]

/-- Settles O2: the encoding is the word packed again, with the value of the command. -/
theorem encodeOfDecodeIsTheWord : Obligations.EncodeOfDecodeIsTheWord := by
  unfold Obligations.EncodeOfDecodeIsTheWord
  intro w i h
  obtain ⟨-, hop, -, hval⟩ := decode_eq_command_iff.mp h
  refine ⟨wellFormed_of_decode h, hop, ?_⟩
  cases i with
  | set index value => exact encode_eq_of_decode h (hval value rfl)
  | wrb addr byte => exact encode_eq_of_decode h (hval byte rfl)
  | get index => exact ⟨encode_of_decode h, encode_eq_of_decode h⟩
  | clr index => exact ⟨encode_of_decode h, encode_eq_of_decode h⟩
  | rdb addr => exact ⟨encode_of_decode h, encode_eq_of_decode h⟩

/-! ### Match and mask -/

/-- The mask of rule R62 keeps `OP` and `RSV` and clears the other fields: a masked word is a bare opcode when `RSV` is 0 and
`OP` is the opcode. -/
theorem mask_eq_iff {w : CommandWord} {op : BitVec 4} :
    w &&& 0xFF000000#32 = packCommand op 0#16 0#8 ↔ rsvField w = 0#4 ∧ opField w = op := by
  have hop : opField (w &&& 0xFF000000#32) = opField w := by
    rw [opField, BitVec.extractLsb'_and]
    exact BitVec.and_allOnes
  have hrsv : rsvField (w &&& 0xFF000000#32) = rsvField w := by
    rw [rsvField, BitVec.extractLsb'_and]
    exact BitVec.and_allOnes
  have hidx : idxField (w &&& 0xFF000000#32) = 0#16 := by
    rw [idxField, BitVec.extractLsb'_and]
    exact BitVec.and_zero
  have hval : valField (w &&& 0xFF000000#32) = 0#8 := by
    rw [valField, BitVec.extractLsb'_and]
    exact BitVec.and_zero
  constructor
  · intro h
    rw [← hop, ← hrsv, h]
    exact ⟨rsvField_packCommand .., opField_packCommand ..⟩
  · rintro ⟨hr, rfl⟩
    rw [word_eq_packCommand (hrsv.trans hr), hop, hidx, hval]

/-- A word under the mask is the match value of a command's opcode exactly when it decodes to the command, where the command
has the operands of the word's own fields (rules R62, R65). -/
theorem mask_eq_iff_decode {w : CommandWord} {op : BitVec 4} {i : Instr} (hop : i.opcode = op)
    (hidx : (idxField w).toNat = i.operand) (hval : ∀ v ∈ i.valueOperand?, valField w = v) :
    w &&& 0xFF000000#32 = packCommand op 0#16 0#8 ↔ decode w = .command i := by
  rw [mask_eq_iff, decode_eq_command_iff, hop, and_iff_left (a := _ = i.operand) hval, and_iff_left hidx]

/-- The five match values of rule R62 are the five bare opcodes. -/
theorem mask_mem_iff {w : CommandWord} :
    w &&& 0xFF000000#32 ∈ [0x10000000#32, 0x20000000#32, 0x30000000#32, 0x40000000#32, 0x50000000#32] ↔
      rsvField w = 0#4 ∧ opField w ∈ [0x1#4, 0x2#4, 0x3#4, 0x4#4, 0x5#4] := by
  have hmatch : [0x10000000#32, 0x20000000#32, 0x30000000#32, 0x40000000#32, 0x50000000#32] =
      [0x1#4, 0x2#4, 0x3#4, 0x4#4, 0x5#4].map (packCommand · 0#16 0#8) := rfl
  rw [hmatch, List.mem_map]
  constructor
  · rintro ⟨op, hmem, h⟩
    obtain ⟨hrsv, rfl⟩ := mask_eq_iff.mp h.symm
    exact ⟨hrsv, hmem⟩
  · rintro ⟨hrsv, hmem⟩
    exact ⟨opField w, hmem, (mask_eq_iff.mpr ⟨hrsv, rfl⟩).symm⟩

/-- Settles O3: each match value is a bare opcode, and the mask keeps exactly `OP` and `RSV`. -/
theorem opcodesByMatchAndMask : Obligations.OpcodesByMatchAndMask := by
  unfold Obligations.OpcodesByMatchAndMask
  refine ⟨fun w => ⟨?get, ?set, ?clr, ?rdb, ?wrb, ?illegal⟩, rfl⟩
  case get => exact mask_eq_iff_decode (op := 0x1#4) (i := .get (idxField w).toNat) rfl rfl nofun
  case set =>
    exact mask_eq_iff_decode (op := 0x2#4) (i := .set (idxField w).toNat (valField w)) rfl rfl fun _ => Option.some.inj
  case clr => exact mask_eq_iff_decode (op := 0x3#4) (i := .clr (idxField w).toNat) rfl rfl nofun
  case rdb => exact mask_eq_iff_decode (op := 0x4#4) (i := .rdb (idxField w).toNat) rfl rfl nofun
  case wrb =>
    exact mask_eq_iff_decode (op := 0x5#4) (i := .wrb (idxField w).toNat (valField w)) rfl rfl fun _ => Option.some.inj
  case illegal => rw [exists_illegal_iff, mask_mem_iff]

/-! ### The ignored field -/

/-- The words whose `VAL` the decoder does not read are those of the commands without a value (rule R65). -/
theorem opcode_mem_iff_valueOperand?_eq_none {i : Instr} :
    i.opcode ∈ [0x1#4, 0x3#4, 0x4#4] ↔ i.valueOperand? = none := by
  cases i <;> simp [Instr.opcode, Instr.valueOperand?]

/-- Words of GET, CLR or RDB that differ in `VAL` only decode alike (rule R65). -/
theorem decode_eq_of_fields_eq {w w' : CommandWord} (hmem : opField w ∈ [0x1#4, 0x3#4, 0x4#4])
    (hop : opField w' = opField w) (hrsv : rsvField w' = rsvField w) (hidx : idxField w' = idxField w) :
    decode w' = decode w := by
  unfold decode
  rw [hop, hrsv, hidx]
  simp only [List.mem_cons, List.not_mem_nil, or_false] at hmem
  rcases hmem with h | h | h <;> rw [h] <;> rfl

/-- The encoder emits 0 for a command without a value (rule R65). -/
theorem valField_encode (i : Instr) : valField (encode i) = i.valueOperand?.getD 0#8 := by
  rw [encode_eq_packCommand, valField_packCommand]

/-- Different words that decode to one command are words of a command without a value, and differ in `VAL` only: every other
field of a decoded word is determined by the command (rule R65). -/
theorem fields_eq_of_decode_eq {w w' : CommandWord} {i : Instr} (h : decode w = .command i)
    (h' : decode w' = .command i) (hne : w ≠ w') :
    opField w ∈ [0x1#4, 0x3#4, 0x4#4] ∧ opField w' = opField w ∧ rsvField w' = rsvField w ∧ idxField w' = idxField w := by
  obtain ⟨hrsv, hop, hidx, hval⟩ := decode_eq_command_iff.mp h
  obtain ⟨hrsv', hop', hidx', hval'⟩ := decode_eq_command_iff.mp h'
  refine ⟨?_, hop'.trans hop.symm, hrsv'.trans hrsv.symm, BitVec.eq_of_toNat_eq (hidx'.trans hidx.symm)⟩
  rw [hop, opcode_mem_iff_valueOperand?_eq_none, Option.eq_none_iff_forall_ne_some]
  intro v hv
  have hw : encode i = w := encode_eq_of_decode h (by rw [hval v hv, hv, Option.getD_some])
  have hw' : encode i = w' := encode_eq_of_decode h' (by rw [hval' v hv, hv, Option.getD_some])
  exact hne (hw.symm.trans hw')

end Sys2Proof
end

section
/-! PROOFS. Illegal words, and what a command in range completes with (30_encoding.md sections 2 and 4). -/

namespace Sys2Proof.Machine

variable {s : State} {w w' : CommandWord} {i : Instr}

/-! ### Illegal words -/

/-- Settles O4: an illegal word has the cause ILLEGAL_CMD, and an accepted word with a cause takes the fault entry. -/
theorem illegalWordsFault : Obligations.IllegalWordsFault := by
  unfold Obligations.IllegalWordsFault
  refine ⟨fun w => exists_illegal_iff_fields, fun s w ha hfields => ?_⟩
  obtain ⟨why, hd⟩ := exists_illegal_iff_fields.mpr hfields
  rw [step_of_faultCause ha (faultCause_of_illegal hd)]
  obtain ⟨-, -, -, rfl⟩ := ha
  rfl

/-! ### The value of an element -/

/-- The bits of a written number: the last one of the list is bit 0. -/
theorem testBit_bitsToNat (bs : List Bool) (k : Nat) : (bitsToNat bs).testBit k = bs.reverse[k]?.getD false := by
  induction bs using List.reverseRecOn generalizing k with
  | nil => simp [bitsToNat]
  | append_singleton bs b ih =>
    have hbit : bitsToNat (bs ++ [b]) = Nat.bit b (bitsToNat bs) := by
      rw [bitsToNat_snoc, Nat.bit_val]
    rw [hbit, List.reverse_concat]
    cases k with
    | zero => simp
    | succ k => rw [Nat.testBit_bit_succ, ih, List.getElem?_cons_succ]

/-- The bits of an element by the layout (rule R42). -/
theorem testBit_elementValue (cfg : Config) (m : Memory) (index k : Nat) :
    (elementValue cfg m index).testBit k =
      (decide (k < cfg.bits) && storageBit m (bitOffset cfg index + (cfg.bits - 1 - k))) := by
  rw [elementValue, testBit_bitsToNat]
  by_cases hk : k < cfg.bits
  · rw [List.getElem?_reverse (by simpa using hk)]
    simp [hk, show cfg.bits - 1 - k < cfg.bits by omega]
  · simp [hk]

/-- What a read gives has no bit at or above `BITS` (rule R90). -/
theorem fitsWidth_readElement {cfg : Config} {m : Memory} {index : Nat} {r : Byte} (hlt : index < cfg.len)
    (h : readElement cfg m index = some r) : FitsWidth cfg r := by
  have hin := resolve_inside hlt
  have ho := resolve_offset_le cfg index
  have hb := bits_range cfg
  intro k hk
  cases hs : (resolve cfg index).spans with
  | false =>
    have hfit := (resolve_spans_eq_false_iff cfg index).mp hs
    rw [readElement_single m hs (by omega)] at h
    cases h
    simp [getLsbD_startFragment, Nat.not_lt.mpr hk]
  | true =>
    have hout := (resolve_spans_iff cfg index).mp hs
    rw [readElement_spanning m hs (by omega)] at h
    cases h
    rw [BitVec.getLsbD_or, getLsbD_nextFragment, BitVec.getLsbD_of_ge (m.unitAt _) _ (by omega), getLsbD_startFragment]
    simp [Nat.not_lt.mpr hk]

/-- Reading an element in range gives the element of the layout (rules R42, R90). -/
theorem readElement_eq_elementValue {cfg : Config} {index : Nat} (m : Memory) (hlt : index < cfg.len) :
    ∃ r, readElement cfg m index = some r ∧ r.toNat = elementValue cfg m index := by
  obtain ⟨r, hread, hbits⟩ := readElement_of_lt m hlt
  refine ⟨r, hread, Nat.eq_of_testBit_eq fun k => ?_⟩
  rw [BitVec.testBit_toNat, testBit_elementValue]
  by_cases hk : k < cfg.bits
  · rw [← hbits _ (by omega), show cfg.bits - 1 - (cfg.bits - 1 - k) = k by omega]
    simp [hk]
  · rw [fitsWidth_readElement hlt hread k (by omega)]
    simp [hk]

/-- Writing an element in range is defined (rule R81). -/
theorem writeElement_of_lt {cfg : Config} {index : Nat} (m : Memory) (v : Byte) (hlt : index < cfg.len) :
    ∃ m', writeElement cfg m index v = some m' := by
  have hin := resolve_inside hlt
  have hb := bits_range cfg
  cases hs : (resolve cfg index).spans with
  | false => exact ⟨_, writeElement_single m v hs (by omega)⟩
  | true =>
    have hout := (resolve_spans_iff cfg index).mp hs
    exact ⟨_, writeElement_spanning m v hs (by omega)⟩

/-! ### A command in range completes -/

/-- The bit `WRN` of a command that completes: a truncating SET's alone (rules R101, R150). -/
def warnBit (cfg : Config) : Instr → Bool
  | .set _ value => truncates cfg value
  | .get _ => false
  | .clr _ => false
  | .rdb _ => false
  | .wrb _ _ => false

/-- The number `DATA` holds when a command completes: the element, the unit, or 0 (rule R68). -/
def dataNumber (cfg : Config) (m : Memory) : Instr → Nat
  | .get index => elementValue cfg m index
  | .rdb addr => (m.unitAt addr).toNat
  | .set _ _ => 0
  | .clr _ => 0
  | .wrb _ _ => 0

/-- A command in range completes with its `WRN` and `DATA`; what it does depends on the constants and the storage alone, not
on what the host drives (rules R68, R142). -/
theorem exec_completes {cfg : Config} (m : Memory) (h : rangeFault cfg i = none) :
    ∃ (d : Byte) (m' : Memory) (e : List (Nat × Byte)), d.toNat = dataNumber cfg m i ∧
      ∀ s : State, s.cfg = cfg → s.storage = m →
        exec i s = .next (respond (warnBit cfg i) d { s with storage := m', diag := s.diag ++ e }) := by
  cases i with
  | get index =>
    have hlt : index < cfg.len := by simpa [rangeFault] using h
    obtain ⟨r, hread, hval⟩ := readElement_eq_elementValue m hlt
    refine ⟨r, m, [], hval, ?_⟩
    rintro s rfl rfl
    rw [exec_get_of_lt hlt, hread, List.append_nil]
    rfl
  | set index value =>
    have hlt : index < cfg.len := by simpa [rangeFault] using h
    obtain ⟨m', hm⟩ := writeElement_of_lt m (truncated cfg value) hlt
    refine ⟨0#8, m', if truncates cfg value then [(index, value)] else [], rfl, ?_⟩
    rintro s rfl rfl
    rw [exec_set_of_lt value hlt, hm, warnBit]
    cases truncates s.cfg value with
    | true => rfl
    | false => rw [if_neg nofun, if_neg nofun, List.append_nil]; rfl
  | clr index =>
    have hlt : index < cfg.len := by simpa [rangeFault] using h
    obtain ⟨m', hm⟩ := writeElement_of_lt m 0#8 hlt
    refine ⟨0#8, m', [], rfl, ?_⟩
    rintro s rfl rfl
    rw [exec_clr_of_lt hlt, clearElement_eq_writeElement_zero, hm, List.append_nil]
    rfl
  | rdb addr =>
    have hlt : addr < cfg.nbytes := by simpa [rangeFault] using h
    refine ⟨m.unitAt addr, m, [], rfl, ?_⟩
    rintro s rfl rfl
    rw [exec_rdb_next hlt, List.append_nil]
    rfl
  | wrb addr byte =>
    have hlt : addr < cfg.nbytes := by simpa [rangeFault] using h
    refine ⟨0#8, m.setUnit addr byte, [], rfl, ?_⟩
    rintro s rfl rfl
    rw [exec_wrb_of_lt byte hlt, List.append_nil]
    rfl

/-- A word without a cause decodes to a command in range (rules R141, R142). -/
theorem faultCause_eq_none_iff {cfg : Config} :
    faultCause cfg w = none ↔ ∃ i, decode w = .command i ∧ rangeFault cfg i = none := by
  unfold faultCause
  cases decode w <;> simp

/-! ### The ignored field -/

/-- Words that decode alike have one cause. -/
theorem faultCause_congr {cfg : Config} (h : decode w' = decode w) : faultCause cfg w' = faultCause cfg w := by
  rw [faultCause, faultCause, h]

/-- Offered words that decode alike take a ready block to the same state but for the word a fault records (rules R65,
R144). -/
theorem step_offer_of_decode_eq (h : decode w' = decode w) (hf : s.fault = false) :
    ∃ t, step (s.offer w) = .next t ∧ step (s.offer w') = .next { t with fcmd := if t.fault then w' else t.fcmd } := by
  cases hc : faultCause s.cfg w with
  | some c =>
    have hc' : faultCause s.cfg w' = some c := (faultCause_congr h).trans hc
    exact ⟨_, step_of_faultCause (accepts_offer w hf) hc, step_of_faultCause (accepts_offer w' hf) hc'⟩
  | none =>
    obtain ⟨i, hd, hr⟩ := faultCause_eq_none_iff.mp hc
    obtain ⟨d, m, e, -, hexec⟩ := exec_completes s.storage hr
    have hstep : ∀ v, decode v = .command i → step (s.offer v) =
        .next (respond (warnBit s.cfg i) d { s with storage := m, diag := s.diag ++ e }) := fun v hv => by
      rw [step_of_command (accepts_offer v hf) hv, hexec (s.offer v) rfl rfl]
      rfl
    refine ⟨_, hstep w hd, ?_⟩
    rw [hstep w' (h.trans hd), respond_fault, hf]
    rfl

/-- Settles O6: the decoder does not read `VAL` of the three commands, and the encoder writes 0 there. -/
theorem valueFieldIgnored : Obligations.ValueFieldIgnored := by
  unfold Obligations.ValueFieldIgnored
  refine ⟨fun w w' hmem hop hrsv hidx => ?_, fun n => ⟨?_, ?_, ?_⟩, fun w w' i => fields_eq_of_decode_eq⟩
  · have hd : decode w' = decode w := decode_eq_of_fields_eq hmem hop hrsv hidx
    exact ⟨hd, fun s => step_offer_of_decode_eq hd⟩
  · exact valField_encode (.get n)
  · exact valField_encode (.clr n)
  · exact valField_encode (.rdb n)

/-! ### The response word -/

@[simp] theorem rspZero_faultResponse (c : Cause) : rspZero (faultResponse c) = 0#4 := rspZero_packResponse ..
@[simp] theorem rspData_faultResponse (c : Cause) : rspData (faultResponse c) = 0#8 := rspData_packResponse ..
@[simp] theorem rspZero_completedResponse (wrn : Bool) (d : Byte) : rspZero (completedResponse wrn d) = 0#4 :=
  rspZero_packResponse ..
@[simp] theorem rspCause_completedResponse (wrn : Bool) (d : Byte) : rspCause (completedResponse wrn d) = 0#2 :=
  rspCause_packResponse ..

/-- A decoded word's `WRN`, in the word's own fields (rule R68). -/
theorem warnBit_of_decode {cfg : Config} (h : decode w = .command i) :
    warnBit cfg i = true ↔ opField w = 0x2#4 ∧ 2 ^ cfg.bits ≤ (valField w).toNat := by
  obtain ⟨-, hop, -, hval⟩ := decode_eq_command_iff.mp h
  rw [hop]
  cases i with
  | set index value => simp [warnBit, truncates, Instr.opcode, hval value rfl]
  | get index => simp [warnBit, Instr.opcode]
  | clr index => simp [warnBit, Instr.opcode]
  | rdb addr => simp [warnBit, Instr.opcode]
  | wrb addr byte => simp [warnBit, Instr.opcode]

/-- A decoded word's `DATA`, in the word's own fields (rule R68). -/
theorem dataNumber_of_decode {cfg : Config} (m : Memory) (h : decode w = .command i) :
    dataNumber cfg m i =
      if opField w = 0x1#4 then elementValue cfg m (idxField w).toNat
      else if opField w = 0x4#4 then (m.unitAt (idxField w).toNat).toNat
      else 0 := by
  obtain ⟨hop, hidx⟩ := fields_of_decode h
  rw [hop, hidx]
  cases i <;> rfl

/-- Settles O35: an accepted word takes the fault of its cause, or its command completes with its `WRN` and `DATA`. -/
theorem responseFields : Obligations.ResponseFields := by
  unfold Obligations.ResponseFields
  intro s w ha
  cases hc : faultCause s.cfg w with
  | some c => exact ⟨_, faultResponse c, step_of_faultCause ha hc, rfl, by simp⟩
  | none =>
    obtain ⟨i, hd, hr⟩ := faultCause_eq_none_iff.mp hc
    obtain ⟨d, m, e, hdata, hexec⟩ := exec_completes s.storage hr
    have hstep := step_of_command ha hd
    rw [hexec s rfl rfl] at hstep
    refine ⟨_, completedResponse (warnBit s.cfg i) d, hstep, rfl, ?_⟩
    simp [warnBit_of_decode hd, hdata, dataNumber_of_decode s.storage hd]

end Sys2Proof.Machine
end

section
/-! PROOFS. What the bit-address resolution finds, and the truncation test (40_address_resolution.md). -/

namespace Sys2Proof.Machine

/-! ### An element in range lies inside the storage -/

/-- Reading an element that lies in one unit depends on that unit alone (rule R81). -/
theorem readElement_congr_of_single {cfg : Config} {m m' : Memory} {index : Nat} (hs : (resolve cfg index).spans = false)
    (hu : (resolve cfg index).unit < cfg.nbytes)
    (h : m.unitAt (resolve cfg index).unit = m'.unitAt (resolve cfg index).unit) :
    readElement cfg m index = readElement cfg m' index := by
  rw [readElement_single m hs hu, readElement_single m' hs hu, h]

/-- Writing any byte as an element that lies in one unit changes no other unit (rule R81). -/
theorem unitAt_writeElement_of_single {cfg : Config} {m m' : Memory} {index a : Nat} {v : Byte} (hw : m.wf = true)
    (hs : (resolve cfg index).spans = false) (h : writeElement cfg m index v = some m')
    (ha : a ≠ (resolve cfg index).unit) :
    m'.unitAt a = m.unitAt a := by
  simp only [writeElement, hs] at h
  obtain ⟨-, rfl⟩ := updateOne_eq_some.mp h
  exact unitAt_setUnit_other _ hw ha

/-- Settles O9: the element ends where the pad bits begin or before, which bounds its units; an access to one unit has
nothing to do with the next. -/
theorem resolvedElementInsideStorage : Obligations.ResolvedElementInsideStorage := by
  unfold Obligations.ResolvedElementInsideStorage
  intro cfg index hlt
  have ho := resolve_offset_le cfg index
  have hb := bits_range cfg
  have hend := bitOffset_add_bits_le hlt
  have hsize : cfg.bits * cfg.len ≤ 8 * cfg.nbytes := (size_bounds cfg.bits cfg.len).1
  have hin := resolve_inside hlt
  have hunit : (resolve cfg index).unit < cfg.nbytes := by omega
  refine ⟨ho, hend, hsize, by omega, by omega, by omega, fun hs => ?next, fun m v => ?defined,
    fun m m' hs => readElement_congr_of_single hs hunit, fun m m' v hw hs h => ?untouched⟩
  case next =>
    have hout := (resolve_spans_iff cfg index).mp hs
    omega
  case defined =>
    obtain ⟨r, hr, -⟩ := readElement_of_lt m hlt
    obtain ⟨m₁, hset⟩ := writeElement_of_lt m v hlt
    obtain ⟨m₂, hclr⟩ := writeElement_of_lt m 0#8 hlt
    rw [clearElement_eq_writeElement_zero, hr, hset, hclr]
    exact ⟨rfl, rfl, rfl⟩
  case untouched =>
    rw [clearElement_eq_writeElement_zero] at h
    rcases h with hm | hm <;> exact unitAt_writeElement_of_single hw hs hm (Nat.succ_ne_self _)

/-! ### Which offsets occur -/

/-- The bit offset is `(index * BITS) mod 8` (rule R82). -/
theorem resolve_offset_eq (cfg : Config) (index : Nat) : (resolve cfg index).offset = index * cfg.bits % 8 := by
  simp only [resolve, bitOffset]
  omega

/-- The start unit is `(index * BITS) div 8` (rule R80). -/
theorem resolve_unit_eq (cfg : Config) (index : Nat) : (resolve cfg index).unit = index * cfg.bits / 8 := rfl

/-- `8 / gcd(b, 8)` elements of `b` bits fill whole units (rule R82). -/
theorem eight_dvd_period_mul (b : Nat) : 8 ∣ 8 / Nat.gcd b 8 * b := by
  rw [Nat.div_mul_right_comm (Nat.gcd_dvd_right b 8), Nat.mul_comm]
  exact Nat.dvd_lcm_right b 8

/-- The offset repeats with period `8 / gcd(BITS, 8)` (rule R82). -/
theorem resolve_offset_add_period (cfg : Config) (index : Nat) :
    (resolve cfg (index + 8 / Nat.gcd cfg.bits 8)).offset = (resolve cfg index).offset := by
  have hperiod := eight_dvd_period_mul cfg.bits
  rw [resolve_offset_eq, resolve_offset_eq, Nat.add_mul]
  omega

/-- Elements at one offset span alike. -/
theorem resolve_spans_congr {cfg : Config} {i j : Nat} (h : (resolve cfg i).offset = (resolve cfg j).offset) :
    (resolve cfg i).spans = (resolve cfg j).spans := by
  rw [Bool.eq_iff_iff, resolve_spans_iff, resolve_spans_iff, h]

/-- An odd width is its own inverse modulo 8, so every offset occurs among the first eight elements (rule R82). -/
theorem exists_resolve_offset_eq {cfg : Config} (hb : cfg.bits ∈ [3, 5, 7]) {o : Nat} (ho : o ≤ 7) :
    ∃ i, i ≤ 7 ∧ (resolve cfg i).offset = o := by
  have hinv : cfg.bits * cfg.bits % 8 = 1 := by
    simp only [List.mem_cons, List.not_mem_nil, or_false] at hb
    rcases hb with h | h | h <;> rw [h]
  refine ⟨o * cfg.bits % 8, by omega, ?_⟩
  calc (resolve cfg (o * cfg.bits % 8)).offset = o * cfg.bits % 8 * cfg.bits % 8 := resolve_offset_eq ..
    _ = o * (cfg.bits * cfg.bits % 8) % 8 := by rw [Nat.mod_mul_mod, Nat.mul_mod_mod, Nat.mul_assoc]
    _ = o := by rw [hinv, Nat.mul_one, Nat.mod_eq_of_lt (Nat.lt_succ_of_le ho)]

/-- Settles O10: each clause is the remainder `index * BITS mod 8` at its width. -/
theorem offsetsByWidth : Obligations.OffsetsByWidth := by
  unfold Obligations.OffsetsByWidth
  intro cfg index
  have ho := resolve_offset_eq cfg index
  have hu := resolve_unit_eq cfg index
  have hspans := resolve_spans_iff cfg index
  have hfits := resolve_spans_eq_false_iff cfg index
  have hperiod := resolve_offset_add_period cfg index
  refine ⟨ho, fun h => ?w8, fun h => ?w4, fun h => ?w2, fun h => ?w1,
    fun h => ⟨fun o => exists_resolve_offset_eq h, ?odd⟩, fun h => ?w6, hperiod, resolve_spans_congr hperiod⟩
  case w8 | w1 =>
    rw [h] at ho hu hfits
    exact ⟨by omega, by omega, hfits.mpr (by omega)⟩
  case w4 | w2 =>
    rw [h] at ho hfits
    simp only [List.mem_cons, List.not_mem_nil, or_false]
    exact ⟨by omega, hfits.mpr (by omega)⟩
  case w6 =>
    rw [h] at ho hspans
    have hoff : (resolve cfg index).offset = index % 4 * 6 % 8 := by omega
    have hr : index % 4 < 4 := Nat.mod_lt _ (by decide)
    rw [hspans, hoff]
    interval_cases index % 4 <;> decide
  case odd =>
    have hb := bits_range cfg
    rw [hspans]
    omega

/-! ### The fragments of an element -/

/-- A spanning element has a tail and a head fragment, each shorter than a unit (rule R83). -/
theorem fragment_widths {cfg : Config} {index : Nat} (hs : (resolve cfg index).spans = true) :
    tailWidth (resolve cfg index) + headWidth cfg (resolve cfg index) = cfg.bits ∧
    1 ≤ tailWidth (resolve cfg index) ∧ tailWidth (resolve cfg index) ≤ 7 ∧
    1 ≤ headWidth cfg (resolve cfg index) ∧ headWidth cfg (resolve cfg index) ≤ 7 := by
  have ho := resolve_offset_le cfg index
  have hb := bits_range cfg
  have hout := (resolve_spans_iff cfg index).mp hs
  simp only [tailWidth, headWidth]
  omega

/-- Bit `k` of an element from the right, where the start unit holds it (rules R42, R83). -/
theorem storageBit_eq_start {cfg : Config} {index k : Nat} (m : Memory) (hk : k < cfg.bits)
    (h : (resolve cfg index).offset + cfg.bits ≤ 8 + k) :
    storageBit m (bitOffset cfg index + (cfg.bits - 1 - k)) =
      (m.unitAt (resolve cfg index).unit).getLsbD (8 + k - ((resolve cfg index).offset + cfg.bits)) := by
  rw [bitOffset_eq, Nat.add_assoc, ← getLsbD_unitAt _ _ (by omega)]
  exact congrArg _ (by omega)

/-- Bit `k` of an element from the right, where the next unit holds it (rules R42, R83). -/
theorem storageBit_eq_next {cfg : Config} {index k : Nat} (m : Memory) (h : 8 + k < (resolve cfg index).offset + cfg.bits) :
    storageBit m (bitOffset cfg index + (cfg.bits - 1 - k)) =
      (m.unitAt ((resolve cfg index).unit + 1)).getLsbD (16 + k - ((resolve cfg index).offset + cfg.bits)) := by
  have ho := resolve_offset_le cfg index
  have hb := bits_range cfg
  have hnext : bitOffset cfg index + (cfg.bits - 1 - k) =
      8 * ((resolve cfg index).unit + 1) + ((resolve cfg index).offset + cfg.bits - 9 - k) := by
    rw [bitOffset_eq]
    omega
  rw [hnext, ← getLsbD_unitAt _ _ (by omega)]
  exact congrArg _ (by omega)

/-- An element that lies in one unit is a run of its bits (rule R83). -/
theorem elementValue_of_single {cfg : Config} {index : Nat} (m : Memory) (hs : (resolve cfg index).spans = false) :
    elementValue cfg m index =
      (m.unitAt (resolve cfg index).unit).toNat / 2 ^ (8 - (resolve cfg index).offset - cfg.bits) % 2 ^ cfg.bits := by
  have hfit := (resolve_spans_eq_false_iff cfg index).mp hs
  refine Nat.eq_of_testBit_eq fun k => ?_
  rw [testBit_elementValue, Nat.testBit_mod_two_pow, Nat.testBit_div_two_pow, BitVec.testBit_toNat]
  by_cases hk : k < cfg.bits
  · rw [storageBit_eq_start m hk (by omega)]
    exact congrArg _ (congrArg _ (by omega))
  · simp [hk]

/-- A spanning element is the low bits of its start unit before the high bits of the next (rule R83). -/
theorem elementValue_of_spans {cfg : Config} {index : Nat} (m : Memory) (hs : (resolve cfg index).spans = true) :
    elementValue cfg m index =
      (m.unitAt (resolve cfg index).unit).toNat % 2 ^ tailWidth (resolve cfg index) * 2 ^ headWidth cfg (resolve cfg index) +
      (m.unitAt ((resolve cfg index).unit + 1)).toNat / 2 ^ (8 - headWidth cfg (resolve cfg index)) := by
  obtain ⟨hsum, -, -, hpos, hle⟩ := fragment_widths hs
  have hhead : headWidth cfg (resolve cfg index) = (resolve cfg index).offset + cfg.bits - 8 := rfl
  generalize tailWidth (resolve cfg index) = h, headWidth cfg (resolve cfg index) = l at *
  have hlow : (m.unitAt ((resolve cfg index).unit + 1)).toNat / 2 ^ (8 - l) < 2 ^ l := by
    rw [Nat.div_lt_iff_lt_mul (Nat.two_pow_pos _), ← Nat.pow_add, Nat.add_sub_cancel' (by omega)]
    exact BitVec.isLt _
  refine Nat.eq_of_testBit_eq fun k => ?_
  rw [testBit_elementValue, Nat.mul_comm, Nat.testBit_two_pow_mul_add _ hlow, Nat.testBit_mod_two_pow,
    Nat.testBit_div_two_pow, BitVec.testBit_toNat, BitVec.testBit_toNat]
  by_cases hl : k < l
  · rw [if_pos hl, storageBit_eq_next m (by omega), decide_eq_true (show k < cfg.bits by omega), Bool.true_and]
    exact congrArg _ (by omega)
  · rw [if_neg hl, decide_eq_decide.mpr (show k < cfg.bits ↔ k - l < h by omega)]
    by_cases hk : k < cfg.bits
    · rw [storageBit_eq_start m hk (by omega)]
      exact congrArg _ (congrArg _ (by omega))
    · simp [show ¬ k - l < h by omega]

/-- Settles O11: bit by bit, the element of the layout is the fragments of its units. -/
theorem fragmentsOfAnElement : Obligations.FragmentsOfAnElement := by
  unfold Obligations.FragmentsOfAnElement
  intro cfg m index
  refine ⟨elementValue_of_single m, fun hs => ?_⟩
  obtain ⟨hsum, ht1, ht7, hh1, hh7⟩ := fragment_widths hs
  exact ⟨rfl, rfl, hsum, ht1, ht7, hh1, hh7, elementValue_of_spans m hs⟩

/-! ### The truncation test -/

/-- A byte reaches `2^n` exactly when it has a bit at or above `n` (rule R87). -/
theorem two_pow_le_toNat_iff (x : Byte) (n : Nat) : 2 ^ n ≤ x.toNat ↔ ∃ k, n ≤ k ∧ k < 8 ∧ x.getLsbD k = true := by
  constructor
  · intro h
    obtain ⟨k, hk, hbit⟩ := Nat.exists_ge_and_testBit_of_ge_two_pow h
    rw [BitVec.testBit_toNat] at hbit
    exact ⟨k, hk, BitVec.lt_of_getLsbD hbit, hbit⟩
  · rintro ⟨k, hk, -, hbit⟩
    rw [← BitVec.testBit_toNat] at hbit
    exact (Nat.pow_le_pow_right two_pos hk).trans (Nat.ge_two_pow_of_testBit hbit)

/-- Settles O13: the test compares with the exact power, and a byte is below `2^8`. -/
theorem truncationTestIsExact : Obligations.TruncationTestIsExact := by
  unfold Obligations.TruncationTestIsExact
  intro cfg value
  have htest : truncates cfg value = true ↔ 2 ^ cfg.bits ≤ value.toNat := decide_eq_true_iff
  refine ⟨htest, ?_, htest.trans (two_pow_le_toNat_iff value cfg.bits), fun h => ?_⟩
  · rw [htest, Nat.div_ne_zero_iff, and_iff_right (Nat.two_pow_pos _).ne']
  · rw [Bool.eq_false_iff, ne_eq, htest, h, Nat.not_le]
    exact value.isLt

end Sys2Proof.Machine
end

section
/-! PROOFS. GET: the forms of its answer, its frame along a run of issued words, and the fresh block (41_get.md). -/

namespace Sys2Proof.Machine

variable {s t : State} {w : CommandWord} {i : Instr}

/-! ### The shift form -/

/-- Reading an element in range, by the shifts of the rule at the unit and the offset of its index (rule R90). -/
theorem readElement_eq_fragments {cfg : Config} {index : Nat} (m : Memory) (h : index < cfg.len) :
    readElement cfg m index = some (
      if index * cfg.bits % 8 + cfg.bits > 8 then
        startFragment cfg (index * cfg.bits % 8) (m.unitAt (index * cfg.bits / 8)) |||
          nextFragment cfg (index * cfg.bits % 8) (m.unitAt (index * cfg.bits / 8 + 1))
      else startFragment cfg (index * cfg.bits % 8) (m.unitAt (index * cfg.bits / 8))) := by
  have hin := resolve_inside h
  have ho := resolve_offset_le cfg index
  have hb := bits_range cfg
  rw [← resolve_offset_eq, ← resolve_unit_eq]
  cases hs : (resolve cfg index).spans with
  | false =>
    have hfit := (resolve_spans_eq_false_iff cfg index).mp hs
    rw [readElement_single m hs (by omega), if_neg (Nat.not_lt.mpr hfit)]
  | true =>
    have hout := (resolve_spans_iff cfg index).mp hs
    rw [readElement_spanning m hs (by omega), if_pos hout]

/-- GET in range completes with what the read gives (rule R90). -/
theorem exec_get_of_readElement {index : Nat} {r : Byte} (h : index < s.cfg.len)
    (hr : readElement s.cfg s.storage index = some r) : exec (.get index) s = .next (respond false r s) := by
  rw [exec_get_of_lt h, hr, completeRead]

/-- Settles O15: the fragments of the read are by definition the rule's shifts, their value is an element's, and the range
check comes first. -/
theorem getReadsTheElement : Obligations.GetReadsTheElement := by
  unfold Obligations.GetReadsTheElement
  intro s index
  refine ⟨fun hlt => ?inside, fun hge => ?outside⟩
  case inside =>
    have hshifts := readElement_eq_fragments s.storage hlt
    obtain ⟨r, hread, hval⟩ := readElement_eq_elementValue s.storage hlt
    have hbound : r.toNat < 2 ^ s.cfg.bits := hval ▸ elementValue_lt s.cfg s.storage index
    cases hshifts.symm.trans hread
    exact ⟨exec_get_of_readElement hlt hshifts, hbound⟩
  case outside =>
    have hcause : rangeFault s.cfg (.get index) = some .indexRange := if_pos hge
    exact exec_of_rangeFault hcause

/-! ### The window form -/

/-- The low bits of a window are those of its second unit (rule R91). -/
theorem testBit_window_next {cfg : Config} {u k : Nat} (m : Memory) (hu : u + 1 < cfg.nbytes) (hk : k < 8) :
    (window cfg m u).testBit k = (m.unitAt (u + 1)).getLsbD k := by
  rw [window, if_pos hu, Nat.mul_comm, Nat.testBit_two_pow_mul_add (i := 8) _ (m.unitAt (u + 1)).isLt, if_pos hk,
    BitVec.testBit_toNat]

/-- The high bits of a window are those of its first unit, whether or not the second one exists (rule R91). -/
theorem testBit_window_start {cfg : Config} {u k : Nat} (m : Memory) (hk : 8 ≤ k) :
    (window cfg m u).testBit k = (m.unitAt u).getLsbD (k - 8) := by
  have hlow : (if u + 1 < cfg.nbytes then (m.unitAt (u + 1)).toNat else 0) < 2 ^ 8 := by
    split
    · exact (m.unitAt (u + 1)).isLt
    · decide
  rw [window, Nat.mul_comm, Nat.testBit_two_pow_mul_add (i := 8) _ hlow, if_neg (Nat.not_lt.mpr hk),
    BitVec.testBit_toNat]

/-- The window form of an element in range is the element of the layout (rule R91). -/
theorem windowValue_eq_elementValue {cfg : Config} {index : Nat} (m : Memory) (h : index < cfg.len) :
    windowValue cfg m index = elementValue cfg m index := by
  have hin := resolve_inside h
  have ho := resolve_offset_le cfg index
  have hb := bits_range cfg
  refine Nat.eq_of_testBit_eq fun k => ?_
  rw [windowValue, windowShift, testBit_elementValue, Nat.testBit_mod_two_pow, Nat.testBit_div_two_pow]
  by_cases hk : k < cfg.bits
  · by_cases hnext : 8 + k < (resolve cfg index).offset + cfg.bits
    · rw [storageBit_eq_next m hnext, testBit_window_next m (by omega) (by omega)]
      exact congrArg _ (congrArg _ (by omega))
    · rw [storageBit_eq_start m hk (by omega), testBit_window_start m (by omega)]
      exact congrArg _ (congrArg _ (by omega))
  · simp [hk]

/-- Settles O16: the read and the window each give the element of the layout, bit by bit. -/
theorem getFormsAgree : Obligations.GetFormsAgree := by
  unfold Obligations.GetFormsAgree
  intro cfg m index hlt
  obtain ⟨r, hread, hbits⟩ := readElement_of_lt m hlt
  obtain ⟨r', hread', hval⟩ := readElement_eq_elementValue m hlt
  cases hread.symm.trans hread'
  refine ⟨r, hread, hval.trans (windowValue_eq_elementValue m hlt).symm, hval, hbits, fun hs => ?_⟩
  have hfit := (resolve_spans_eq_false_iff cfg index).mp hs
  omega

/-! ### Issuing a word -/

/-- A word that gets a response took a step that answers it. -/
theorem step_of_issue {r : ResponseWord} (h : issue w s = some (t, r)) : step (s.offer w) = .next t ∧ t.rsp = some r := by
  unfold issue at h
  split at h
  next u hstep =>
    split at h
    next r' hrsp =>
      cases h
      exact ⟨hstep, hrsp⟩
    · cases h
  all_goals cases h

/-- A run of words that all get a response is the first word's, then the run of the others. -/
theorem issueAll_cons_eq_some {ws : List CommandWord} {rs : List ResponseWord} (h : issueAll (w :: ws) s = some (t, rs)) :
    ∃ u r rs', issue w s = some (u, r) ∧ issueAll ws u = some (t, rs') := by
  simp only [issueAll] at h
  split at h
  · cases h
  next u r hissue =>
    split at h
    · cases h
    next t' rs' hrest =>
      cases h
      exact ⟨u, r, rs', hissue, hrest⟩

/-- What every command a word can decode to keeps of the constants and the storage, issuing the word keeps: an illegal word's
fault touches neither (rule R144). -/
theorem issue_keeps_storage {P : Config → Memory → Prop} {r : ResponseWord}
    (hkeep : ∀ i s t, decode w = .command i → exec i s = .next t → P s.cfg s.storage → P t.cfg t.storage)
    (h : issue w s = some (t, r)) (hs : P s.cfg s.storage) : P t.cfg t.storage := by
  obtain ⟨hstep, -⟩ := step_of_issue h
  rcases step_next_cases hstep with ⟨hr, -⟩ | ⟨-, -, hv, -⟩ | ⟨-, -, rfl⟩ | ⟨-, i, u, hd, hu, rfl⟩
  · cases hr
  · cases hv
  · exact hs
  · exact hkeep i _ u hd hu hs

/-- The same along a run of words: the one induction over issued words. -/
theorem issueAll_keeps_storage {P : Config → Memory → Prop} {ws : List CommandWord} {rs : List ResponseWord}
    (hkeep : ∀ w ∈ ws, ∀ i s t, decode w = .command i → exec i s = .next t → P s.cfg s.storage → P t.cfg t.storage)
    (h : issueAll ws s = some (t, rs)) (hs : P s.cfg s.storage) : P t.cfg t.storage := by
  induction ws generalizing s rs with
  | nil =>
    cases h
    exact hs
  | cons w ws ih =>
    obtain ⟨u, r, rs', hissue, hrest⟩ := issueAll_cons_eq_some h
    have hu : P u.cfg u.storage := issue_keeps_storage (hkeep w List.mem_cons_self) hissue hs
    exact ih (fun w' hw' => hkeep w' (List.mem_cons_of_mem w hw')) hrest hu

/-- A ready block that is issued the encoding of a reading command that completes answers its `DATA`, and keeps all but its
outputs. -/
theorem issue_encode_of_read {d : Byte} (hf : s.fault = false) (hwf : WellFormed i)
    (he : exec i (s.offer (encode i)) = .next (respond false d (s.offer (encode i)))) :
    issue (encode i) s = some (respond false d s, completedResponse false d) :=
  issue_command hf (decodeOfEncodeIsTheCommand i hwf) he rfl

/-- Issuing GET in range (rules R90, R92). -/
theorem issue_get {index : Nat} {r : Byte} (hf : s.fault = false) (h : index < s.cfg.len)
    (hr : readElement s.cfg s.storage index = some r) :
    issue (encode (.get index)) s = some (respond false r s, completedResponse false r) :=
  issue_encode_of_read hf (decide_eq_true (h.trans_le (len_le s.cfg))) (exec_get_of_readElement h hr)

/-- Issuing RDB in range (rule R120). -/
theorem issue_rdb {addr : Nat} (hf : s.fault = false) (h : addr < s.cfg.nbytes) :
    issue (encode (.rdb addr)) s =
      some (respond false (s.storage.unitAt addr) s, completedResponse false (s.storage.unitAt addr)) :=
  issue_encode_of_read hf (decide_eq_true (h.trans_le (nbytes_le s.cfg))) (exec_rdb_next h)

/-! ### GET changes nothing -/

/-- GET and RDB leave the storage, completing or not (rules R46, R92). -/
theorem exec_read_storage (hop : i.opcode ∈ [0x1#4, 0x4#4]) (h : exec i s = .next t) : t.storage = s.storage := by
  rcases exec_storage_cases h with hsame | ⟨index, v, rfl | ⟨value, rfl⟩, -⟩ | ⟨addr, byte, rfl, -⟩
  · exact hsame
  all_goals exact absurd hop (by simp [Instr.opcode])

/-- A run of GETs and RDBs leaves the constants and the storage (rule R92). -/
theorem issueAll_reads_keep {ws : List CommandWord} {rs : List ResponseWord}
    (hops : ∀ w ∈ ws, opField w ∈ [0x1#4, 0x4#4]) (h : issueAll ws s = some (t, rs)) :
    t.cfg = s.cfg ∧ t.storage = s.storage := by
  refine issueAll_keeps_storage (P := fun cfg m => cfg = s.cfg ∧ m = s.storage) ?_ h ⟨rfl, rfl⟩
  rintro w hw i a b hd he ⟨hcfg, hm⟩
  obtain ⟨hop, -⟩ := fields_of_decode hd
  exact ⟨(exec_cfg he).trans hcfg, (exec_read_storage (hop ▸ hops w hw) he).trans hm⟩

/-- Settles O17: GET completes with a response alone, and a run of reads leaves all that a GET answers from. -/
theorem getChangesNothing : Obligations.GetChangesNothing := by
  unfold Obligations.GetChangesNothing
  intro s index hlt
  obtain ⟨r, hread, -⟩ := readElement_of_lt s.storage hlt
  refine ⟨⟨_, exec_get_of_readElement hlt hread, rfl, rfl, rfl, rfl, rfl, rfl, rfl⟩, fun ws t rs hf hops hrun hft => ?_⟩
  obtain ⟨hcfg, hm⟩ := issueAll_reads_keep hops hrun
  exact ⟨hm, _, _, _, issue_get hf hlt hread, issue_get hft (hcfg ▸ hlt) (by rw [hcfg, hm, hread])⟩

/-! ### The fresh block -/

theorem storageBit_nil (abs : Nat) : storageBit [] abs = false := BitVec.getLsbD_zero

/-- Every element of a storage of zeros is 0 (rule R93). -/
theorem elementValue_nil (cfg : Config) (index : Nat) : elementValue cfg [] index = 0 :=
  Nat.zero_of_testBit_eq_false fun k => by rw [testBit_elementValue, storageBit_nil, Bool.and_false]

/-- Reading any element of a storage of zeros gives 0 (rule R93). -/
theorem readElement_nil {cfg : Config} {index : Nat} (h : index < cfg.len) : readElement cfg [] index = some 0#8 := by
  obtain ⟨r, hread, hval⟩ := readElement_eq_elementValue [] h
  rw [elementValue_nil] at hval
  rw [hread, BitVec.eq_of_toNat_eq (y := 0#8) hval]

/-- Clearing an element of a storage of zeros leaves it (rule R106). -/
theorem eq_nil_of_writeElement_zero {cfg : Config} {m : Memory} {index : Nat} (h : writeElement cfg [] index 0#8 = some m) :
    m = [] := by
  refine eq_of_storageBit rfl ((writeElement_keeps h).1 rfl) fun abs => ?_
  rw [storageBit_writeElement rfl (fitsWidth_zero cfg) h, storageBit_nil, BitVec.getLsbD_zero, ite_self]

/-- A command that is no SET or WRB leaves a storage of zeros (rule R93). -/
theorem exec_keeps_nil (hop : i.opcode ∉ [0x2#4, 0x5#4]) (h : exec i s = .next t) (hs : s.storage = []) :
    t.storage = [] := by
  rcases exec_storage_cases h with hsame | ⟨index, v, rfl | ⟨value, rfl⟩, hlt, -⟩ | ⟨addr, byte, rfl, -⟩
  · exact hsame.trans hs
  · exact eq_nil_of_writeElement_zero (hs ▸ exec_clr_storage hlt h)
  all_goals exact absurd (by simp [Instr.opcode]) hop

/-- Settles O18: reset empties the storage, and no word but a SET or a WRB lists a unit. -/
theorem freshBlockReadsZero : Obligations.FreshBlockReadsZero := by
  unfold Obligations.FreshBlockReadsZero
  intro s t t' ws rs hr hstep hops hrun hf
  cases (step_of_rst hr).symm.trans hstep
  have hzero : t'.storage = [] := by
    refine issueAll_keeps_storage (P := fun _ m => m = []) ?_ hrun rfl
    intro w hw i a b hd he hm
    obtain ⟨hop, -⟩ := fields_of_decode hd
    exact exec_keeps_nil (hop ▸ hops w hw) he hm
  refine ⟨fun index hlt => ⟨_, issue_get hf hlt (hzero ▸ readElement_nil hlt)⟩, fun addr hlt => ?_⟩
  have hissue := issue_rdb hf hlt
  rw [hzero, unitAt_nil] at hissue
  exact ⟨_, hissue⟩

end Sys2Proof.Machine
end

section
/-! PROOFS. SET and CLR: the units they write, their postconditions and the closed forms (42_set_clear.md). -/

namespace Sys2Proof.Machine

variable {cfg : Config} {m m' : Memory} {s t : State} {index : Nat} {v value : Byte}

/-! ### What a command that writes an element answers -/

theorem truncates_iff : truncates cfg value = true ↔ 2 ^ cfg.bits ≤ value.toNat := decide_eq_true_iff

/-- SET in range writes the truncated value, and warns when it truncates (rules R100, R101). -/
theorem exec_set_of_writeElement (hlt : index < s.cfg.len)
    (hm : writeElement s.cfg s.storage index (truncated s.cfg value) = some m) :
    exec (.set index value) s = .next (
      if 2 ^ s.cfg.bits ≤ value.toNat then respond true 0#8 (recordTruncation index value { s with storage := m })
      else respond false 0#8 { s with storage := m }) := by
  rw [exec_set_of_lt value hlt, hm]
  simp only [truncates_iff]
  split <;> rfl

/-- CLR in range writes 0 (rules R106, R108). -/
theorem exec_clr_of_writeElement (hlt : index < s.cfg.len) (hm : writeElement s.cfg s.storage index 0#8 = some m) :
    exec (.clr index) s = .next (respond false 0#8 { s with storage := m }) := by
  rw [exec_clr_of_lt hlt, clearElement_eq_writeElement_zero, hm, completeWrite]

/-! ### The units -/

/-- The unit of an element that does not span, after the write (rule R100). -/
theorem unitAt_writeElement_single (hw : m.wf = true) (hs : (resolve cfg index).spans = false)
    (h : writeElement cfg m index v = some m') :
    m'.unitAt (resolve cfg index).unit =
      clearWhole cfg (resolve cfg index).offset (m.unitAt (resolve cfg index).unit) |||
        shl8 v (8 - (resolve cfg index).offset - cfg.bits) := by
  simp only [writeElement, hs] at h
  obtain ⟨-, rfl⟩ := updateOne_eq_some.mp h
  exact unitAt_setUnit_same _ _ hw

/-- The units of a spanning element, and any other one, after the write (rule R100). -/
theorem unitAt_writeElement_spanning (hw : m.wf = true) (hs : (resolve cfg index).spans = true)
    (h : writeElement cfg m index v = some m') :
    m'.unitAt (resolve cfg index).unit =
      (clearTail (tailWidth (resolve cfg index)) (m.unitAt (resolve cfg index).unit) |||
        shr8 v (headWidth cfg (resolve cfg index))) ∧
    m'.unitAt ((resolve cfg index).unit + 1) =
      (clearHead (headWidth cfg (resolve cfg index)) (m.unitAt ((resolve cfg index).unit + 1)) |||
        shl8 v (8 - headWidth cfg (resolve cfg index))) ∧
    ∀ a, a ≠ (resolve cfg index).unit → a ≠ (resolve cfg index).unit + 1 → m'.unitAt a = m.unitAt a := by
  simp only [writeElement, hs, if_true] at h
  obtain ⟨-, rfl⟩ := updateTwo_eq_some.mp h
  have hw' := wf_setUnit (resolve cfg index).unit
    (clearTail (tailWidth (resolve cfg index)) (m.unitAt (resolve cfg index).unit) |||
      shr8 v (headWidth cfg (resolve cfg index))) hw
  refine ⟨?_, unitAt_setUnit_same _ _ hw', fun a ha ha' => ?_⟩
  · rw [unitAt_setUnit_other _ hw' (Nat.succ_ne_self _).symm, unitAt_setUnit_same _ _ hw]
  · rw [unitAt_setUnit_other _ hw' ha', unitAt_setUnit_other _ hw ha]

/-- Settles O19: the write is defined in range, and its units are those of the rule's masks and shifts. -/
theorem setWritesTheElement : Obligations.SetWritesTheElement := by
  unfold Obligations.SetWritesTheElement
  intro s index value
  refine ⟨fun hw hlt => ?inside, fun hge => ?outside⟩
  case inside =>
    obtain ⟨m, hm⟩ := writeElement_of_lt s.storage (truncated s.cfg value) hlt
    have hexec := exec_set_of_writeElement hlt hm
    simp only [← resolve_offset_eq, ← resolve_unit_eq]
    refine ⟨m, fun h => ?_, fun h => ?_, fun hfit => ?_, fun hout => ?_⟩
    · rw [hexec, if_pos h]
      rfl
    · rw [hexec, if_neg (Nat.not_le.mpr h)]
      rfl
    · have hs := (resolve_spans_eq_false_iff s.cfg index).mpr hfit
      exact ⟨unitAt_writeElement_single hw hs hm, fun a => unitAt_writeElement_of_single hw hs hm⟩
    · exact unitAt_writeElement_spanning hw ((resolve_spans_iff s.cfg index).mpr hout) hm
  case outside =>
    have hcause : rangeFault s.cfg (.set index value) = some .indexRange := if_pos hge
    exact exec_of_rangeFault hcause

/-- Settles O24: CLR's units are those of a write of 0, whose shifted value has no bits. -/
theorem clrClearsTheElement : Obligations.ClrClearsTheElement := by
  unfold Obligations.ClrClearsTheElement
  intro s index
  refine ⟨fun hw hlt => ?inside, fun hge => ?outside⟩
  case inside =>
    obtain ⟨m, hm⟩ := writeElement_of_lt s.storage 0#8 hlt
    simp only [← resolve_offset_eq, ← resolve_unit_eq]
    refine ⟨m, exec_clr_of_writeElement hlt hm, fun hfit => ?_, fun hout => ?_⟩
    · have hs := (resolve_spans_eq_false_iff s.cfg index).mpr hfit
      have hunit := unitAt_writeElement_single hw hs hm
      rw [shl8, BitVec.zero_shiftLeft, BitVec.or_zero] at hunit
      exact ⟨hunit, fun a => unitAt_writeElement_of_single hw hs hm⟩
    · obtain ⟨hstart, hnext, hother⟩ := unitAt_writeElement_spanning hw ((resolve_spans_iff s.cfg index).mpr hout) hm
      rw [shr8, BitVec.zero_ushiftRight, BitVec.or_zero] at hstart
      rw [shl8, BitVec.zero_shiftLeft, BitVec.or_zero] at hnext
      exact ⟨hstart, hnext, hother⟩
  case outside =>
    have hcause : rangeFault s.cfg (.clr index) = some .indexRange := if_pos hge
    exact exec_of_rangeFault hcause

/-! ### What a GET reads after a write -/

/-- A read gives the byte whose bits are the element's storage bits (rules R42, R90). -/
theorem readElement_eq_some_of_bits (hlt : index < cfg.len) (hv : FitsWidth cfg v)
    (hbits : ∀ k, k < cfg.bits → v.getLsbD (cfg.bits - 1 - k) = storageBit m (bitOffset cfg index + k)) :
    readElement cfg m index = some v := by
  obtain ⟨r, hread, hr⟩ := readElement_of_lt m hlt
  have hrv : r = v := BitVec.eq_of_getLsbD_eq fun k _ => by
    by_cases hk : k < cfg.bits
    · have hsame := (hr (cfg.bits - 1 - k) (by omega)).trans (hbits (cfg.bits - 1 - k) (by omega)).symm
      rwa [show cfg.bits - 1 - (cfg.bits - 1 - k) = k by omega] at hsame
    · rw [fitsWidth_readElement hlt hread k (by omega), hv k (by omega)]
  rw [hread, hrv]

/-- A written element reads as the value written (rule R104, item 1). -/
theorem readElement_writeElement_same (hw : m.wf = true) (hlt : index < cfg.len) (hv : FitsWidth cfg v)
    (h : writeElement cfg m index v = some m') : readElement cfg m' index = some v :=
  readElement_eq_some_of_bits hlt hv fun k hk => by
    rw [storageBit_writeElement hw hv h, if_pos (inElement_iff.mpr (by omega)), Nat.add_sub_cancel_left]

/-- Every other element reads as before (rule R104, item 2). -/
theorem readElement_writeElement_other {j : Nat} (hw : m.wf = true) (hj : j < cfg.len) (hne : j ≠ index)
    (hv : FitsWidth cfg v) (h : writeElement cfg m index v = some m') : readElement cfg m' j = readElement cfg m j := by
  obtain ⟨r, hread, hbits⟩ := readElement_of_lt m hj
  rw [hread]
  refine readElement_eq_some_of_bits hj (fitsWidth_readElement hj hread) fun k hk => ?_
  have hself : inElement cfg j (bitOffset cfg j + k) = true := inElement_iff.mpr (by omega)
  have hout : ¬ inElement cfg index (bitOffset cfg j + k) = true := fun hin =>
    hne ((inElement_iff_eq_div.mp hself).trans (inElement_iff_eq_div.mp hin).symm)
  rw [storageBit_writeElement hw hv h, if_neg hout, hbits k hk]

/-- GETs of one element that read alike respond alike. -/
theorem exec_get_rsp_eq_of_readElement_eq (hlt : index < s.cfg.len) (hcfg : t.cfg = s.cfg)
    (h : readElement s.cfg t.storage index = readElement s.cfg s.storage index) :
    ∃ u u', exec (.get index) s = .next u ∧ exec (.get index) t = .next u' ∧ u'.rsp = u.rsp := by
  obtain ⟨r, hread, -⟩ := readElement_of_lt s.storage hlt
  rw [hread, ← hcfg] at h
  exact ⟨_, _, exec_get_of_readElement hlt hread, exec_get_of_readElement (hcfg ▸ hlt) h, rfl⟩

/-- Bits outside the element are as before the write (rule R104, item 3). -/
theorem storageBit_writeElement_other {abs : Nat} (hw : m.wf = true) (hv : FitsWidth cfg v)
    (h : writeElement cfg m index v = some m') (habs : inElement cfg index abs = false) :
    storageBit m' abs = storageBit m abs := by
  rw [storageBit_writeElement hw hv h, habs, if_neg Bool.false_ne_true]

theorem toNat_truncated (cfg : Config) (value : Byte) : (truncated cfg value).toNat = value.toNat % 2 ^ cfg.bits := by
  rw [truncated, BitVec.toNat_ofNat]
  exact Nat.mod_eq_of_lt ((Nat.mod_le _ _).trans_lt value.isLt)

/-- SET in range completes, with the constants and the fault registers as they were (rules R100, R104). -/
theorem exec_set_next (value : Byte) (hlt : index < s.cfg.len) :
    ∃ t, exec (.set index value) s = .next t ∧ t.cfg = s.cfg ∧ t.fault = s.fault ∧ t.fcause = s.fcause ∧
      t.fcmd = s.fcmd := by
  obtain ⟨m, hm⟩ := writeElement_of_lt s.storage (truncated s.cfg value) hlt
  refine ⟨_, exec_set_of_writeElement hlt hm, ?_⟩
  split <;> exact ⟨rfl, rfl, rfl, rfl⟩

/-- Settles O20: SET writes the truncated value as the element's bits, and that value alone decides the new storage. -/
theorem setPostconditions : Obligations.SetPostconditions := by
  unfold Obligations.SetPostconditions
  intro s index value hw hlt
  obtain ⟨t, hset, hcfg, hfault, hfcause, hfcmd⟩ := exec_set_next value hlt
  have hm := exec_set_storage hlt hset
  have hv := fitsWidth_truncated s.cfg value
  refine ⟨t, hset, ?read, fun j hj hne => ?others, fun abs => storageBit_writeElement_other hw hv hm, fun a ha => ?units,
    hfault, hfcause, hfcmd, fun s' t' value' hcfg' hsto hmod hset' => ?determined⟩
  case read =>
    have hread := readElement_writeElement_same hw hlt hv hm
    rw [← hcfg] at hlt hread
    refine ⟨_, _, exec_get_of_readElement hlt hread, rfl, ?_⟩
    rw [rspData_completedResponse, toNat_truncated, hcfg]
  case others => exact exec_get_rsp_eq_of_readElement_eq hj hcfg (readElement_writeElement_other hw hj hne hv hm)
  case units => exact unitAt_writeElement_other hw hv hm (ne_true_of_eq_false ha)
  case determined =>
    have hm' := exec_set_storage (hcfg' ▸ hlt) hset'
    have hsame : truncated s.cfg value' = truncated s.cfg value := by rw [truncated, hmod, truncated]
    rw [hcfg', hsto, hsame] at hm'
    exact Option.some.inj (hm'.symm.trans hm)

/-- Settles O25: CLR writes 0 as the element's bits, and writing it again changes nothing. -/
theorem clrPostconditions : Obligations.ClrPostconditions := by
  unfold Obligations.ClrPostconditions
  intro s index hw hlt
  obtain ⟨m, hm⟩ := writeElement_of_lt s.storage 0#8 hlt
  obtain ⟨m', hm'⟩ := writeElement_of_lt m 0#8 hlt
  have hv := fitsWidth_zero s.cfg
  refine ⟨_, exec_clr_of_writeElement hlt hm, rfl, ?read, fun j hj hne => ?others,
    fun abs => storageBit_writeElement_other hw hv hm, ?twice, rfl, rfl, rfl, rfl⟩
  case read => exact ⟨_, exec_get_of_readElement hlt (readElement_writeElement_same hw hlt hv hm), rfl⟩
  case others => exact exec_get_rsp_eq_of_readElement_eq hj rfl (readElement_writeElement_other hw hj hne hv hm)
  case twice =>
    cases writeElement_twice hw hv hm hm'
    exact exec_clr_of_writeElement hlt hm'

/-! ### The window form -/

/-- The bits of the window form of SET: the value's at the element's place, the window's elsewhere (rule R105). -/
theorem getLsbD_windowReplace {n k : Nat} (hn : n < 2 ^ cfg.bits) (hk : k < 16) :
    (windowReplace cfg m index n).getLsbD k =
      if windowShift cfg index ≤ k ∧ k < windowShift cfg index + cfg.bits then n.testBit (k - windowShift cfg index)
      else (window cfg m (resolve cfg index).unit).testBit k := by
  rw [windowReplace, BitVec.getLsbD_or, BitVec.getLsbD_and, BitVec.getLsbD_not, BitVec.getLsbD_ofNat,
    BitVec.getLsbD_ofNat, BitVec.getLsbD_ofNat, Nat.testBit_mul_two_pow, Nat.testBit_mul_two_pow,
    Nat.testBit_two_pow_sub_one]
  by_cases hlo : windowShift cfg index ≤ k
  · by_cases hhi : k < windowShift cfg index + cfg.bits
    · simp [hk, hlo, hhi, show k - windowShift cfg index < cfg.bits by omega]
    · have hzero : n.testBit (k - windowShift cfg index) = false :=
        Nat.testBit_lt_two_pow (hn.trans_le (Nat.pow_le_pow_right two_pos (by omega)))
      simp [hk, hhi, hzero, show ¬ k - windowShift cfg index < cfg.bits by omega]
  · simp [hk, hlo]

/-- Bit `p` from the left of a window is the storage bit there, as far as the storage goes (rule R91). -/
theorem testBit_window_eq_storageBit {u p : Nat} (m : Memory) (hp : p < 16) (hin : 8 ≤ p → u + 1 < cfg.nbytes) :
    (window cfg m u).testBit (15 - p) = storageBit m (8 * u + p) := by
  by_cases hstart : p < 8
  · rw [testBit_window_start m (by omega), show 15 - p - 8 = 7 - p by omega, getLsbD_unitAt m u hstart]
  · rw [testBit_window_next m (hin (by omega)) (by omega), show 15 - p = 7 - (p - 8) by omega,
      getLsbD_unitAt m _ (by omega)]
    exact congrArg _ (by omega)

theorem toNat_lt_of_fitsWidth (hv : FitsWidth cfg v) : v.toNat < 2 ^ cfg.bits := by
  by_contra h
  obtain ⟨k, hk, -, hbit⟩ := (two_pow_le_toNat_iff v cfg.bits).mp (Nat.not_lt.mp h)
  rw [hv k hk] at hbit
  cases hbit

/-- Bit `p` from the left of the window form is the storage bit there after the write, as far as the storage goes
(rule R105). -/
theorem getLsbD_windowReplace_eq_storageBit {p : Nat} (hw : m.wf = true) (hv : FitsWidth cfg v)
    (h : writeElement cfg m index v = some m') (hp : p < 16) (hin : 8 ≤ p → (resolve cfg index).unit + 1 < cfg.nbytes) :
    (windowReplace cfg m index v.toNat).getLsbD (15 - p) = storageBit m' (8 * (resolve cfg index).unit + p) := by
  have ho := resolve_offset_le cfg index
  have hb := bits_range cfg
  have hsh : windowShift cfg index = 16 - (resolve cfg index).offset - cfg.bits := rfl
  rw [getLsbD_windowReplace (toNat_lt_of_fitsWidth hv) (by omega), storageBit_writeElement hw hv h,
    testBit_window_eq_storageBit m hp hin]
  simp only [inElement_iff, bitOffset_eq]
  by_cases hel : (resolve cfg index).offset ≤ p ∧ p < (resolve cfg index).offset + cfg.bits
  · rw [if_pos (by omega), if_pos (by omega), BitVec.testBit_toNat]
    exact congrArg _ (by omega)
  · rw [if_neg (by omega), if_neg (by omega)]

/-- The high byte of the window form is the start unit after the write (rule R105). -/
theorem toNat_unitAt_start_eq_windowReplace (hw : m.wf = true) (hv : FitsWidth cfg v)
    (h : writeElement cfg m index v = some m') :
    (m'.unitAt (resolve cfg index).unit).toNat = (windowReplace cfg m index v.toNat).toNat / 2 ^ 8 := by
  refine Nat.eq_of_testBit_eq fun k => ?_
  rw [Nat.testBit_div_two_pow, BitVec.testBit_toNat, BitVec.testBit_toNat]
  by_cases hk : k < 8
  · have hbit := getLsbD_windowReplace_eq_storageBit (p := 7 - k) hw hv h (by omega) (by omega)
    rw [← getLsbD_unitAt m' _ (by omega), show 15 - (7 - k) = k + 8 by omega, show 7 - (7 - k) = k by omega] at hbit
    exact hbit.symm
  · rw [BitVec.getLsbD_of_ge _ _ (by omega), BitVec.getLsbD_of_ge _ _ (by omega)]

/-- The low byte of the window form is the second unit of a spanning element after the write (rule R105). -/
theorem toNat_unitAt_next_eq_windowReplace (hw : m.wf = true) (hv : FitsWidth cfg v)
    (h : writeElement cfg m index v = some m') (hin : (resolve cfg index).unit + 1 < cfg.nbytes) :
    (m'.unitAt ((resolve cfg index).unit + 1)).toNat = (windowReplace cfg m index v.toNat).toNat % 2 ^ 8 := by
  refine Nat.eq_of_testBit_eq fun k => ?_
  rw [Nat.testBit_mod_two_pow, BitVec.testBit_toNat, BitVec.testBit_toNat]
  by_cases hk : k < 8
  · have hbit := getLsbD_windowReplace_eq_storageBit (p := 15 - k) hw hv h (by omega) (fun _ => hin)
    rw [show 8 * (resolve cfg index).unit + (15 - k) = 8 * ((resolve cfg index).unit + 1) + (7 - k) by omega,
      ← getLsbD_unitAt m' _ (by omega), show 15 - (15 - k) = k by omega, show 7 - (7 - k) = k by omega] at hbit
    rw [hbit, decide_eq_true hk, Bool.true_and]
  · rw [BitVec.getLsbD_of_ge _ _ (by omega), decide_eq_false hk, Bool.false_and]

/-- An element that does not span lies in the high byte of its window (rule R105). -/
theorem eight_le_windowShift (hs : (resolve cfg index).spans = false) : 8 ≤ windowShift cfg index := by
  have hfit := (resolve_spans_eq_false_iff cfg index).mp hs
  simp only [windowShift]
  omega

/-- The window form of an element that does not span keeps the low byte of the window (rule R105). -/
theorem windowReplace_mod_of_single {n : Nat} (hn : n < 2 ^ cfg.bits) (hs : (resolve cfg index).spans = false) :
    (windowReplace cfg m index n).toNat % 2 ^ 8 = window cfg m (resolve cfg index).unit % 2 ^ 8 := by
  have hshift := eight_le_windowShift hs
  refine Nat.eq_of_testBit_eq fun k => ?_
  rw [Nat.testBit_mod_two_pow, Nat.testBit_mod_two_pow, BitVec.testBit_toNat]
  by_cases hk : k < 8
  · rw [getLsbD_windowReplace hn (by omega), if_neg (by omega)]
  · rw [decide_eq_false hk, Bool.false_and, Bool.false_and]

/-- Settles O21: bit by bit, the storage after the write is the window form, whose field is the truncated value. -/
theorem setClosedForm : Obligations.SetClosedForm := by
  unfold Obligations.SetClosedForm
  intro s t index value hw hlt hset
  have hm := exec_set_storage hlt hset
  have hv := fitsWidth_truncated s.cfg value
  rw [← toNat_truncated]
  refine ⟨fun k hk => ?field, fun abs => storageBit_writeElement_other hw hv hm,
    toNat_unitAt_start_eq_windowReplace hw hv hm, fun hs => ?spanning, fun hs => ?single⟩
  case field =>
    rw [← bitOffset, storageBit_writeElement hw hv hm, if_pos (inElement_iff.mpr (by omega)), Nat.add_sub_cancel_left,
      BitVec.testBit_toNat]
  case spanning =>
    have hin := resolve_inside hlt
    have hout := (resolve_spans_iff s.cfg index).mp hs
    exact toNat_unitAt_next_eq_windowReplace hw hv hm (by omega)
  case single =>
    exact ⟨eight_le_windowShift hs, windowReplace_mod_of_single (toNat_lt_of_fitsWidth hv) hs,
      unitAt_writeElement_of_single hw hs hm (Nat.succ_ne_self _)⟩

/-! ### The warning, and CLR as SET 0 -/

/-- A value below `2^BITS` is its own truncation (rule R101). -/
theorem truncated_of_lt (h : value.toNat < 2 ^ cfg.bits) : truncated cfg value = value :=
  BitVec.eq_of_toNat_eq (by rw [toNat_truncated, Nat.mod_eq_of_lt h])

/-- Settles O22: SET warns exactly when the value reaches `2^BITS`, and no byte reaches `2^8`. -/
theorem fullWidthNeverWarns : Obligations.FullWidthNeverWarns := by
  unfold Obligations.FullWidthNeverWarns
  intro s index value hlt
  obtain ⟨m, hm⟩ := writeElement_of_lt s.storage (truncated s.cfg value) hlt
  have hexec := exec_set_of_writeElement hlt hm
  have hbyte : value.toNat < 256 := value.isLt
  by_cases htrunc : 2 ^ s.cfg.bits ≤ value.toNat
  · rw [if_pos htrunc] at hexec
    refine ⟨_, _, hexec, rfl, rspWrn_completedResponse .., fun h8 => ?_, fun _ => ?_⟩
    · rw [h8] at htrunc
      omega
    · exact iff_of_true rfl ⟨htrunc, by omega⟩
  · rw [if_neg htrunc] at hexec
    refine ⟨_, _, hexec, rfl, rspWrn_completedResponse .., fun _ => ?_, fun _ => ?_⟩
    · exact ⟨rfl, rfl, truncated_of_lt (Nat.not_le.mp htrunc)⟩
    · exact iff_of_false Bool.false_ne_true fun h => htrunc h.1

/-- Settles O26: SET 0 truncates nothing and writes 0, which is what CLR writes; the opcodes differ. -/
theorem clrIsSetZero : Obligations.ClrIsSetZero := by
  unfold Obligations.ClrIsSetZero
  refine ⟨fun s index hlt => ?_, fun index heq => ?_⟩
  · obtain ⟨m, hm⟩ := writeElement_of_lt s.storage 0#8 hlt
    have hfits : (0#8).toNat < 2 ^ s.cfg.bits := Nat.two_pow_pos _
    have hset := exec_set_of_writeElement (value := 0#8) hlt (truncated_of_lt hfits ▸ hm)
    rw [if_neg (Nat.not_le.mpr hfits)] at hset
    exact ⟨_, exec_clr_of_writeElement hlt hm, hset, rfl⟩
  · have hop := congrArg opField heq
    rw [encode, encode, opField_packCommand, opField_packCommand] at hop
    exact absurd hop (by decide)

end Sys2Proof.Machine
end

section
/-! PROOFS. What RDB answers and what WRB writes (43_raw_bytes.md). -/

namespace Sys2Proof.Machine

/-- Settles O27: RDB completes with the addressed unit, whose bits are the storage bits from `8*addr` on, and the range
check comes first. -/
theorem rdbReadsTheUnit : Obligations.RdbReadsTheUnit := by
  unfold Obligations.RdbReadsTheUnit
  intro s addr
  refine ⟨fun hlt => ?inside, fun hge => ?outside⟩
  case inside =>
    exact ⟨exec_rdb_next hlt, fun k hk => getLsbD_unitAt s.storage addr hk⟩
  case outside =>
    have hcause : rangeFault s.cfg (.rdb addr) = some .byteRange := if_pos hge
    exact exec_of_rangeFault hcause

/-- Settles O28: WRB's storage is the old one with one unit set, read back by the storage laws, and the range check comes
first. -/
theorem wrbWritesTheUnit : Obligations.WrbWritesTheUnit := by
  unfold Obligations.WrbWritesTheUnit
  intro s addr byte
  refine ⟨fun hw hlt => ?inside, fun hge => ?outside⟩
  case inside =>
    exact ⟨s.storage.setUnit addr byte, exec_wrb_of_lt byte hlt, unitAt_setUnit_same addr byte hw,
      fun a ha => unitAt_setUnit_other byte hw ha⟩
  case outside =>
    have hcause : rangeFault s.cfg (.wrb addr byte) = some .byteRange := if_pos hge
    exact exec_of_rangeFault hcause

end Sys2Proof.Machine
end

section
/-! PROOFS. The size of the storage, the two views as sequences, and the equalities (44_wrappers.md). -/

namespace Sys2Proof.Machine

variable {cfg : Config} {m m' : Memory}

/-! ### The size -/

/-- Settles O48: `size` rounds `b * n` bits up to whole units; the rest are instances of its definition. -/
theorem sizeOfStorage : Obligations.SizeOfStorage := by
  unfold Obligations.SizeOfStorage
  have hfull (n : Nat) : size 8 n = n := by
    unfold size
    omega
  exact ⟨size_bounds, fun b => by simp [size], hfull, fun _ => rfl, by decide⟩

/-! ### The sequences -/

/-- Element `i`, right-aligned in 8 bits (rule R40): the entry of `elementsOf`. -/
def elementByte (cfg : Config) (m : Memory) (i : Nat) : Byte := BitVec.ofNat 8 (elementValue cfg m i)

theorem elementsOf_eq_map (cfg : Config) (m : Memory) : elementsOf cfg m = (List.range cfg.len).map (elementByte cfg m) :=
  rfl

/-- No bit of an element is lost in 8 bits (rule R5). -/
theorem toNat_elementByte (cfg : Config) (m : Memory) (i : Nat) : (elementByte cfg m i).toNat = elementValue cfg m i := by
  have hpow : 2 ^ cfg.bits ≤ 2 ^ 8 := Nat.pow_le_pow_right (by decide) (bits_range cfg).2
  exact (BitVec.toNat_ofNat ..).trans (Nat.mod_eq_of_lt ((elementValue_lt cfg m i).trans_le hpow))

@[simp] theorem length_bytesOf (cfg : Config) (m : Memory) : (bytesOf cfg m).length = cfg.nbytes := by simp [bytesOf]

@[simp] theorem length_elementsOf (cfg : Config) (m : Memory) : (elementsOf cfg m).length = cfg.len := by
  simp [elementsOf]

/-- A sequence of the length of a table is that table when it holds each entry. -/
theorem map_range_eq_iff {α : Type} {f : Nat → α} {n : Nat} {l : List α} (hl : l.length = n) :
    (List.range n).map f = l ↔ ∀ a, a < n → l[a]? = some (f a) := by
  constructor
  · rintro rfl a ha
    simp [ha]
  · intro h
    refine List.ext_getElem (by simp [hl]) fun a _ ha => ?_
    obtain ⟨_, hentry⟩ := List.getElem?_eq_some_iff.mp (h a (hl ▸ ha))
    simp [hentry]

/-- The byte view is a sequence of `NBYTES` bytes when each of them is its unit (rule R134). -/
theorem bytesOf_eq_iff {b : List Byte} (hb : b.length = cfg.nbytes) :
    bytesOf cfg m = b ↔ ∀ a, a < cfg.nbytes → b[a]? = some (m.unitAt a) :=
  map_range_eq_iff hb

/-- The element view is a sequence of `LEN` values when each of them is its element (rule R135). -/
theorem elementsOf_eq_iff {x : List Byte} (hx : x.length = cfg.len) :
    elementsOf cfg m = x ↔ ∀ i, i < cfg.len → (x[i]?).map BitVec.toNat = some (elementValue cfg m i) := by
  have hentry (i : Nat) : x[i]? = some (elementByte cfg m i) ↔
      (x[i]?).map BitVec.toNat = some (elementValue cfg m i) := by
    rw [← toNat_elementByte, ← Option.map_some]
    exact (Option.map_injective fun _ _ => BitVec.eq_of_toNat_eq).eq_iff.symm
  rw [elementsOf_eq_map, map_range_eq_iff hx]
  exact forall₂_congr fun i _ => hentry i

/-- Storages have one byte view when they have the same bits (rule R41). -/
theorem bytesOf_eq_bytesOf_iff :
    bytesOf cfg m = bytesOf cfg m' ↔ ∀ abs, abs < 8 * cfg.nbytes → storageBit m abs = storageBit m' abs := by
  simp only [bytesOf, List.map_inj_left, List.mem_range]
  constructor
  · intro h abs habs
    rw [storageBit, storageBit, h (abs / 8) (by omega)]
  · intro h a ha
    exact unitAt_eq_of_storageBit fun k hk => h (8 * a + k) (by omega)

/-- Storages have one element when it has the same bits in both (rule R42). -/
theorem elementByte_eq_iff {i : Nat} : elementByte cfg m i = elementByte cfg m' i ↔
    ∀ k, k < cfg.bits → storageBit m (bitOffset cfg i + k) = storageBit m' (bitOffset cfg i + k) := by
  rw [← BitVec.toNat_inj, toNat_elementByte, toNat_elementByte]
  constructor
  · intro h k hk
    have hbit := congrArg (Nat.testBit · (cfg.bits - 1 - k)) h
    simpa [testBit_elementValue, show cfg.bits - 1 - (cfg.bits - 1 - k) = k by omega,
      show cfg.bits - 1 - k < cfg.bits by omega] using hbit
  · intro h
    refine Nat.eq_of_testBit_eq fun k => ?_
    rw [testBit_elementValue, testBit_elementValue]
    by_cases hk : k < cfg.bits
    · rw [h _ (by omega)]
    · simp [hk]

/-- Storages have one element view when they have the same bits below the pad bits (rules R42, R45). -/
theorem elementsOf_eq_elementsOf_iff :
    elementsOf cfg m = elementsOf cfg m' ↔ ∀ abs, abs < cfg.bits * cfg.len → storageBit m abs = storageBit m' abs := by
  simp only [elementsOf_eq_map, List.map_inj_left, List.mem_range, elementByte_eq_iff]
  constructor
  · intro h abs habs
    have hmod : abs % cfg.bits < cfg.bits := Nat.mod_lt _ (bits_range cfg).1
    have hbit := h (abs / cfg.bits) (Nat.div_lt_of_lt_mul habs) _ hmod
    rwa [bitOffset, Nat.mul_comm, Nat.div_add_mod] at hbit
  · intro h i hi k hk
    have hend := bitOffset_add_bits_le hi
    exact h _ (by omega)

/-- The byte view decides the element view (rule R40). -/
theorem elementsOf_eq_of_bytesOf_eq (h : bytesOf cfg m = bytesOf cfg m') : elementsOf cfg m = elementsOf cfg m' := by
  obtain ⟨hsum, -⟩ := padBits_spec cfg
  exact elementsOf_eq_elementsOf_iff.mpr fun abs habs => bytesOf_eq_bytesOf_iff.mp h abs (by omega)

/-- For canonical storages the element view decides the byte view: the pad bits are 0 (rule R31). -/
theorem bytesOf_eq_of_elementsOf_eq (hm : canonical cfg m = true) (hm' : canonical cfg m' = true)
    (h : elementsOf cfg m = elementsOf cfg m') : bytesOf cfg m = bytesOf cfg m' := by
  rw [canonical_iff] at hm hm'
  refine bytesOf_eq_bytesOf_iff.mpr fun abs habs => ?_
  by_cases hpad : cfg.bits * cfg.len ≤ abs
  · rw [hm abs hpad habs, hm' abs hpad habs]
  · exact elementsOf_eq_elementsOf_iff.mp h abs (by omega)

/-- Without pad bits every storage is canonical (rule R45). -/
theorem canonical_of_no_padBits (h : cfg.bits * cfg.len % 8 = 0) : canonical cfg m = true := by
  obtain ⟨hsum, hpad⟩ := padBits_spec cfg
  exact (canonical_iff cfg m).mpr fun abs hlo hhi => by omega

/-! ### The equalities -/

theorem eqp?_bytesOf : eqp? cfg m (bytesOf cfg m') = some true ↔ bytesOf cfg m = bytesOf cfg m' := by
  simp [eqp?]

theorem eqa?_elementsOf : eqa? cfg m (elementsOf cfg m') = some true ↔ elementsOf cfg m = elementsOf cfg m' := by
  simp [eqa?]

/-- Settles O53: the byte view is the elements and the pad bits; the counterexample at BITS = 3, LEN = 9 sets the five pad
bits of an empty storage. -/
theorem equalitiesAreConsistent : Obligations.EqualitiesAreConsistent := by
  unfold Obligations.EqualitiesAreConsistent
  refine ⟨fun cfg m m' h => ?_, fun cfg m m' hm hm' h => ?_, fun cfg m => canonical_of_no_padBits,
    Config.worked, [], [(3, 0x1F#8)], by decide⟩
  · have hbytes : bytesOf cfg m = bytesOf cfg m' := eqp?_bytesOf.mp h
    exact ⟨eqa?_elementsOf.mpr (elementsOf_eq_of_bytesOf_eq hbytes), fun α hashFn => congrArg hashFn hbytes⟩
  · exact eqp?_bytesOf.mpr (bytesOf_eq_of_elementsOf_eq hm hm' (eqa?_elementsOf.mp h))

end Sys2Proof.Machine
end

section
/-! PROOFS. The runs of reading commands: UNPACK, ITER, EQP, EQA, HASH and SER (44_wrappers.md). -/

namespace Sys2Proof.Machine

variable {cfg : Config} {m : Memory} {s : State}

/-! ### A run of reads -/

/-- The block after it completed commands with these bytes in `DATA` and no warning: only its outputs differ. -/
def respondAll (ds : List Byte) (s : State) : State := ds.foldl (fun t d => respond false d t) s

/-- Responding leaves every field but the outputs (rule R132). -/
theorem respondAll_eq (ds : List Byte) (s : State) :
    respondAll ds s = { s with rsp := (respondAll ds s).rsp, warn := (respondAll ds s).warn } := by
  induction ds generalizing s with
  | nil => rfl
  | cons d ds ih => exact ih (respond false d s)

@[simp] theorem respondAll_cfg (ds : List Byte) (s : State) : (respondAll ds s).cfg = s.cfg := by
  rw [respondAll_eq]
@[simp] theorem respondAll_storage (ds : List Byte) (s : State) : (respondAll ds s).storage = s.storage := by
  rw [respondAll_eq]
@[simp] theorem respondAll_fault (ds : List Byte) (s : State) : (respondAll ds s).fault = s.fault := by
  rw [respondAll_eq]
@[simp] theorem respondAll_diag (ds : List Byte) (s : State) : (respondAll ds s).diag = s.diag := by
  rw [respondAll_eq]

/-- Every ready block with these constants and this storage answers the word with the byte `d`, and only its outputs
change. -/
def Answers (cfg : Config) (m : Memory) (w : CommandWord) (d : Byte) : Prop :=
  ∀ s : State, s.fault = false → s.cfg = cfg → s.storage = m →
    issue w s = some (respond false d s, completedResponse false d)

/-- GET in range answers its element (rules R42, R90). -/
theorem answers_get {i : Nat} (m : Memory) (hi : i < cfg.len) : Answers cfg m (encode (.get i)) (elementByte cfg m i) := by
  rintro s hf rfl rfl
  obtain ⟨r, hread, hval⟩ := readElement_eq_elementValue s.storage hi
  cases BitVec.eq_of_toNat_eq (hval.trans (toNat_elementByte s.cfg s.storage i).symm)
  exact issue_get hf hi hread

/-- RDB in range answers its unit (rule R120). -/
theorem answers_rdb {a : Nat} (m : Memory) (ha : a < cfg.nbytes) : Answers cfg m (encode (.rdb a)) (m.unitAt a) := by
  rintro s hf rfl rfl
  exact issue_rdb hf ha

/-- A run of words that each answer a byte answers the bytes in order. -/
theorem issueAll_of_answers {xs : List Nat} {word : Nat → CommandWord} {data : Nat → Byte} (hf : s.fault = false)
    (h : ∀ x ∈ xs, Answers s.cfg s.storage (word x) (data x)) :
    issueAll (xs.map word) s = some (respondAll (xs.map data) s, (xs.map data).map (completedResponse false)) := by
  induction xs generalizing s with
  | nil => rfl
  | cons x xs ih =>
    have hhead := h x List.mem_cons_self s hf rfl rfl
    have htail := ih (s := respond false (data x) s) hf fun y hy => h y (List.mem_cons_of_mem x hy)
    exact issueAll_cons hhead htail

/-- What the host computes from such a run. -/
theorem issueFor_of_answers {α : Type} {xs : List Nat} {word : Nat → CommandWord} {data : Nat → Byte} (f : List Byte → α)
    (hf : s.fault = false) (h : ∀ x ∈ xs, Answers s.cfg s.storage (word x) (data x)) :
    issueFor (xs.map word) f s = some (respondAll (xs.map data) s, f (xs.map data)) := by
  simp [issueFor, issueAll_of_answers hf h, Function.comp_def]

/-- The GETs of UNPACK answer the element view (rule R131). -/
theorem issueFor_getCommands {α : Type} (f : List Byte → α) (hf : s.fault = false) :
    issueFor (getCommands s.cfg) f s =
      some (respondAll (elementsOf s.cfg s.storage) s, f (elementsOf s.cfg s.storage)) :=
  issueFor_of_answers f hf fun _ hi => answers_get s.storage (List.mem_range.mp hi)

/-- The RDBs of EQP, HASH and SER answer the byte view (rule R134). -/
theorem issueFor_rdbCommands {α : Type} (f : List Byte → α) (hf : s.fault = false) :
    issueFor (rdbCommands s.cfg) f s = some (respondAll (bytesOf s.cfg s.storage) s, f (bytesOf s.cfg s.storage)) :=
  issueFor_of_answers f hf fun _ ha => answers_rdb s.storage (List.mem_range.mp ha)

/-! ### UNPACK -/

theorem unpackRun_eq (hf : s.fault = false) :
    unpackRun s = some (respondAll (elementsOf s.cfg s.storage) s, elementsOf s.cfg s.storage) :=
  issueFor_getCommands _ hf

/-- Settles O49: the run of GETs answers the element view and changes outputs alone; without elements it is no command. -/
theorem unpackGivesTheElements : Obligations.UnpackGivesTheElements := by
  unfold Obligations.UnpackGivesTheElements
  intro s hf
  have hempty (hlen : s.cfg.len = 0) : elementsOf s.cfg s.storage = [] :=
    List.eq_nil_of_length_eq_zero ((length_elementsOf _ _).trans hlen)
  exact ⟨by simp [getCommands], fun i hi => by simp [getCommands, hi], _, unpackRun_eq hf, respondAll_eq _ s,
    fun hlen => by rw [hempty hlen]; rfl, length_elementsOf _ _⟩

/-! ### ITER -/

/-- A request below `LEN` yields the element of the counter (rule R133). -/
theorem iterNext_of_lt {n : Nat} (hf : s.fault = false) (hn : n < s.cfg.len) :
    iterNext n s =
      .value (elementByte s.cfg s.storage n) (n + 1) (respond false (elementByte s.cfg s.storage n) s) := by
  rw [iterNext_of_issue hn (answers_get s.storage hn s hf rfl rfl), rspData_completedResponse]

/-- Requests from the counter `n` on yield the `k` elements that are left, and find the iteration over (rule R133). -/
theorem iterFrom_eq {n k : Nat} (hf : s.fault = false) (hk : n + k = s.cfg.len) :
    iterFrom (k + 1) n s = some (respondAll ((List.range' n k).map (elementByte s.cfg s.storage)) s,
      (List.range' n k).map (elementByte s.cfg s.storage)) := by
  induction k generalizing n s with
  | zero => exact iterFrom_of_ge (by omega)
  | succ k ih =>
    have hrest := ih (n := n + 1) (s := respond false (elementByte s.cfg s.storage n) s) hf
      (by rw [respond_cfg]; omega)
    exact iterFrom_of_value (iterNext_of_lt hf (by omega)) hrest

/-- ITER from its start to its end is UNPACK (rule R133). -/
theorem iterRun_eq (hf : s.fault = false) :
    iterRun s = some (respondAll (elementsOf s.cfg s.storage) s, elementsOf s.cfg s.storage) := by
  rw [elementsOf_eq_map, List.range_eq_range']
  exact iterFrom_eq hf (Nat.zero_add _)

/-- Settles O50: a request below `LEN` is one GET, and the requests from 0 are those of UNPACK. -/
theorem iteratorYieldsTheElements : Obligations.IteratorYieldsTheElements := by
  unfold Obligations.IteratorYieldsTheElements
  intro s n hf
  refine ⟨fun hn => ?_, iterNext_of_ge, rfl, ?_⟩
  · exact ⟨_, _, iterNext_of_lt hf hn, toNat_elementByte s.cfg s.storage n, rfl⟩
  · exact ⟨_, iterRun_eq hf, unpackRun_eq hf, respondAll_eq _ s, iterNext_of_ge (by rw [respondAll_cfg])⟩

/-! ### EQP, EQA, HASH and SER -/

theorem serRun_eq (hf : s.fault = false) :
    serRun s = some (respondAll (bytesOf s.cfg s.storage) s, bytesOf s.cfg s.storage) :=
  issueFor_rdbCommands _ hf

theorem hashRun_eq {α : Type} (hashFn : List Byte → α) (hf : s.fault = false) :
    hashRun hashFn s = some (respondAll (bytesOf s.cfg s.storage) s, hashFn (bytesOf s.cfg s.storage)) :=
  issueFor_rdbCommands hashFn hf

theorem eqpRun_eq {b : List Byte} (hf : s.fault = false) (hb : b.length = s.cfg.nbytes) :
    eqpRun b s = some (respondAll (bytesOf s.cfg s.storage) s,
      decide (∀ a, a < s.cfg.nbytes → b[a]? = some (s.storage.unitAt a))) := by
  rw [eqpRun, if_pos hb, issueFor_rdbCommands _ hf, decide_eq_decide.mpr (bytesOf_eq_iff hb)]

theorem eqaRun_eq {x : List Byte} (hf : s.fault = false) (hx : x.length = s.cfg.len) :
    eqaRun x s = some (respondAll (elementsOf s.cfg s.storage) s,
      decide (∀ i, i < s.cfg.len → (x[i]?).map BitVec.toNat = some (elementValue s.cfg s.storage i))) := by
  rw [eqaRun, if_pos hx, issueFor_getCommands _ hf, decide_eq_decide.mpr (elementsOf_eq_iff hx)]

/-- Settles O51: each run computes from the view its reads answer, and reads change outputs alone. -/
theorem hostRunsComputeTheirFunctions : Obligations.HostRunsComputeTheirFunctions := by
  unfold Obligations.HostRunsComputeTheirFunctions
  intro s hf
  exact ⟨fun b hb => ⟨_, eqpRun_eq hf hb, respondAll_eq _ s⟩, fun x hx => ⟨_, eqaRun_eq hf hx, respondAll_eq _ s⟩,
    fun α hashFn => ⟨_, hashRun_eq hashFn hf, respondAll_eq _ s⟩, ⟨_, serRun_eq hf, respondAll_eq _ s⟩⟩

end Sys2Proof.Machine
end

section
/-! PROOFS. DESER as a run of writes, and DESER after SER (44_wrappers.md). -/

namespace Sys2Proof.Machine

variable {cfg : Config} {m m' : Memory} {s t : State} {b : List Byte}

/-! ### A run of writes -/

/-- The storage after these bytes are written to the units `a`, `a + 1` and on, each with `setUnit`. -/
def Memory.setBytes : Nat → List Byte → Memory → Memory
  | _, [], m => m
  | a, b :: bs, m => Memory.setBytes (a + 1) bs (m.setUnit a b)

/-- Writing bytes inside the storage keeps the canonical form and the bounds. -/
theorem keepsStorage_setBytes {a : Nat} {bs : List Byte} (m : Memory) (h : a + bs.length ≤ cfg.nbytes) :
    KeepsStorage cfg m (Memory.setBytes a bs m) := by
  induction bs generalizing a m with
  | nil => exact keepsStorage_refl cfg m
  | cons b bs ih =>
    rw [List.length_cons] at h
    exact keepsStorage_trans (keepsStorage_setUnit m b (by omega)) (ih (m.setUnit a b) (by omega))

/-- The units below the first one written are as they were. -/
theorem unitAt_setBytes_of_lt {a x : Nat} (bs : List Byte) (hw : m.wf = true) (hx : x < a) :
    (Memory.setBytes a bs m).unitAt x = m.unitAt x := by
  induction bs generalizing a m with
  | nil => rfl
  | cons b bs ih =>
    rw [Memory.setBytes, ih (wf_setUnit a b hw) (Nat.lt_succ_of_lt hx), unitAt_setUnit_other b hw (Nat.ne_of_lt hx)]

/-- Unit `a + x` holds the byte `x` of those written. -/
theorem getElem?_eq_unitAt_setBytes {a x : Nat} {bs : List Byte} (hw : m.wf = true) (hx : x < bs.length) :
    bs[x]? = some ((Memory.setBytes a bs m).unitAt (a + x)) := by
  induction bs generalizing a x m with
  | nil => exact absurd hx (Nat.not_lt_zero x)
  | cons b bs ih =>
    have hw' : (m.setUnit a b).wf = true := wf_setUnit a b hw
    cases x with
    | zero =>
      rw [Memory.setBytes, Nat.add_zero a, unitAt_setBytes_of_lt bs hw' (Nat.lt_add_one a), unitAt_setUnit_same a b hw]
      rfl
    | succ x =>
      rw [Memory.setBytes, List.getElem?_cons_succ, ih hw' (Nat.lt_of_succ_lt_succ hx), Nat.succ_add_eq_add_succ]

/-- `NBYTES` bytes written from unit 0 are the byte view (rule R124). -/
theorem bytesOf_setBytes (hw : m.wf = true) (hb : b.length = cfg.nbytes) : bytesOf cfg (Memory.setBytes 0 b m) = b := by
  refine (bytesOf_eq_iff hb).mpr fun a ha => ?_
  have hunit := getElem?_eq_unitAt_setBytes (a := 0) hw (hb ▸ ha)
  rwa [Nat.zero_add] at hunit

/-- `NBYTES` bytes are the byte view of their storage (rule R137). -/
theorem bytesOf_ofBytes (hb : b.length = cfg.nbytes) : bytesOf cfg (Memory.ofBytes 0 b) = b := by
  refine (bytesOf_eq_iff hb).mpr fun a ha => ?_
  have hunit := unitAt_ofBytes b 0 a
  rw [Nat.zero_add] at hunit
  simp [hunit, hb, ha]

/-- Storages in canonical form and inside the bounds that have one byte view are one list. -/
theorem eq_of_bytesOf_eq (hw : m.wf = true) (hw' : m'.wf = true) (hin : m.within cfg.nbytes = true)
    (hin' : m'.within cfg.nbytes = true) (h : bytesOf cfg m = bytesOf cfg m') : m = m' := by
  simp only [bytesOf, List.map_inj_left, List.mem_range] at h
  refine eq_of_unitAt hw hw' fun u => ?_
  by_cases hu : u < cfg.nbytes
  · exact h u hu
  · rw [unitAt_of_within hin (Nat.le_of_not_lt hu), unitAt_of_within hin' (Nat.le_of_not_lt hu)]

/-! ### DESER -/

/-- Issuing WRB in range (rule R121). -/
theorem issue_wrb {addr : Nat} (byte : Byte) (hf : s.fault = false) (h : addr < s.cfg.nbytes) :
    issue (encode (.wrb addr byte)) s =
      some (respond false 0#8 { s with storage := s.storage.setUnit addr byte }, completedResponse false 0#8) := by
  have hwf : WellFormed (.wrb addr byte) := decide_eq_true (h.trans_le (nbytes_le s.cfg))
  exact issue_command hf (decodeOfEncodeIsTheCommand _ hwf) (exec_wrb_of_lt byte h) rfl

/-- A run of WRBs in range stores its bytes and answers zeros (rules R121, R137). -/
theorem issueAll_wrbCommands {a : Nat} {bs : List Byte} (hf : s.fault = false) (h : a + bs.length ≤ s.cfg.nbytes) :
    issueAll (wrbCommands a bs) s =
      some (respondAll (bs.map fun _ => 0#8) { s with storage := Memory.setBytes a bs s.storage },
        bs.map fun _ => completedResponse false 0#8) := by
  induction bs generalizing a s with
  | nil => rfl
  | cons b bs ih =>
    rw [List.length_cons] at h
    have hrest : a + 1 + bs.length ≤ s.cfg.nbytes := by omega
    have hhead := issue_wrb b hf (show a < s.cfg.nbytes by omega)
    have htail := ih (s := respond false 0#8 { s with storage := s.storage.setUnit a b }) hf hrest
    exact issueAll_cons hhead htail

/-- DESER on a ready block stores its bytes, halts nothing and leaves the trace (rule R137). -/
theorem exists_deserRun (hf : s.fault = false) (hb : b.length = s.cfg.nbytes) :
    ∃ t, deserRun b s = some t ∧ t.fault = false ∧ t.cfg = s.cfg ∧ t.diag = s.diag ∧
      t.storage = Memory.setBytes 0 b s.storage :=
  ⟨_, deserRun_of_issueAll hf hb (issueAll_wrbCommands hf (by omega)), by simp [hf]⟩

/-- Settles O52: DESER writes every unit, so the byte view is its input; with the invariant the byte view decides the
storage. -/
theorem deserAfterSerReproduces : Obligations.DeserAfterSerReproduces := by
  unfold Obligations.DeserAfterSerReproduces
  refine ⟨fun s b hw hf hb => ?stores, fun s t hs ht hfs hft hcfg => ?reproduces, fun s b => deserRun_of_halted⟩
  case stores =>
    obtain ⟨t, hrun, hft, hcfg, hdiag, hm⟩ := exists_deserRun hf hb
    have hbytes : bytesOf t.cfg t.storage = b := by rw [hcfg, hm, bytesOf_setBytes hw hb]
    have helements : elementsOf t.cfg t.storage = elementsOf s.cfg (Memory.ofBytes 0 b) := by
      rw [← hcfg]
      exact elementsOf_eq_of_bytesOf_eq (hbytes.trans (bytesOf_ofBytes (hcfg ▸ hb)).symm)
    exact ⟨t, hrun, hft, hcfg, hdiag, hbytes, _, helements ▸ unpackRun_eq hft⟩
  case reproduces =>
    have hb : (bytesOf s.cfg s.storage).length = t.cfg.nbytes := by rw [length_bytesOf, hcfg]
    obtain ⟨t', hrun, -, -, -, hm⟩ := exists_deserRun hft hb
    have hfit : 0 + (bytesOf s.cfg s.storage).length ≤ t.cfg.nbytes := by omega
    obtain ⟨hw, hin⟩ := keepsStorage_setBytes t.storage hfit
    have hbytes : bytesOf s.cfg (Memory.setBytes 0 (bytesOf s.cfg s.storage) t.storage) = bytesOf s.cfg s.storage :=
      bytesOf_setBytes ht.storageWf (length_bytesOf _ _)
    exact ⟨_, _, t', serRun_eq hfs, hrun, hm.trans <|
      eq_of_bytesOf_eq (hw ht.storageWf) hs.storageWf (hcfg ▸ hin ht.storageInside) hs.storageInside hbytes⟩

end Sys2Proof.Machine
end

section
/-! PROOFS. Accepted words: their fault, their completion, the warning; and the halted block (60_exceptions.md). -/

namespace Sys2Proof.Machine

variable {cfg : Config} {s : State} {w : CommandWord} {i : Instr}

/-! ### Values equal modulo `2^BITS` -/

/-- Values equal modulo `2^BITS` are stored as one byte (rule R152). -/
theorem truncated_eq_truncated_iff {value value' : Byte} :
    truncated cfg value = truncated cfg value' ↔ value.toNat % 2 ^ cfg.bits = value'.toNat % 2 ^ cfg.bits := by
  rw [← BitVec.toNat_inj, toNat_truncated, toNat_truncated]

/-- Settles O23: both SETs write one truncated byte, and of two such values only one is below `2^BITS`. -/
theorem aliasedSetsStoreTheSame : Obligations.AliasedSetsStoreTheSame := by
  unfold Obligations.AliasedSetsStoreTheSame
  intro s index value value' hlt hmod
  have hsame : truncated s.cfg value = truncated s.cfg value' := truncated_eq_truncated_iff.mpr hmod
  obtain ⟨m, hm⟩ := writeElement_of_lt s.storage (truncated s.cfg value) hlt
  refine ⟨_, _, exec_set_of_writeElement hlt hm, exec_set_of_writeElement hlt (hsame ▸ hm), ?same, fun hfits hne => ?trace⟩
  case same => split <;> split <;> rfl
  case trace =>
    have haliases : 2 ^ s.cfg.bits ≤ value'.toNat := by
      by_contra hsmall
      rw [truncated_of_lt hfits, truncated_of_lt (Nat.not_le.mp hsmall)] at hsame
      exact hne hsame
    rw [if_neg (Nat.not_le.mpr hfits), if_pos haliases]
    exact ⟨rfl, rfl⟩

/-! ### The words that warn -/

/-- The word is a SET in range of a value that does not fit (rules R101, R150). -/
def TruncatingSet (cfg : Config) (w : CommandWord) : Prop :=
  ∃ index value, decode w = .command (.set index value) ∧ index < cfg.len ∧ 2 ^ cfg.bits ≤ value.toNat

/-- A truncating SET in the word's own fields (rules R61, R62). -/
theorem truncatingSet_fields (h : TruncatingSet cfg w) :
    rsvField w = 0#4 ∧ opField w = 0x2#4 ∧ (idxField w).toNat < cfg.len ∧ 2 ^ cfg.bits ≤ (valField w).toNat := by
  obtain ⟨index, value, hd, hlt, htrunc⟩ := h
  obtain ⟨hrsv, hop, hidx, hval⟩ := decode_eq_command_iff.mp hd
  exact ⟨hrsv, hop, hidx ▸ hlt, hval value rfl ▸ htrunc⟩

/-- An accepted truncating SET completes with `WRN = 1`, the pulse and its one event (rules R101, R150). -/
theorem step_of_truncatingSet {index : Nat} {value : Byte} (ha : Accepts s w) (hd : decode w = .command (.set index value))
    (hlt : index < s.cfg.len) (htrunc : 2 ^ s.cfg.bits ≤ value.toNat) :
    ∃ m, step s = .next (advanceInputs (respond true 0#8 (recordTruncation index value { s with storage := m }))) := by
  obtain ⟨m, hm⟩ := writeElement_of_lt s.storage (truncated s.cfg value) hlt
  refine ⟨m, ?_⟩
  rw [step_of_command ha hd, exec_set_of_writeElement hlt hm, if_pos htrunc, finishCommand]

/-- A step that does not accept a truncating SET leaves the trace, raises no pulse and answers no `WRN` (rule R150). -/
theorem step_silent {t : State} (h : step s = .next t) (hset : Accepts s s.pins.cmd → ¬ TruncatingSet s.cfg s.pins.cmd) :
    t.diag = s.diag ∧ t.warn = false ∧ ∀ r ∈ t.rsp, rspWrn r = false := by
  rcases step_next_cases h with ⟨-, rfl⟩ | ⟨-, -, -, rfl⟩ | ⟨-, -, rfl⟩ | ⟨ha, i, u, hd, hu, rfl⟩
  case inl => exact ⟨rfl, rfl, nofun⟩
  case inr.inl => exact ⟨rfl, rfl, nofun⟩
  case inr.inr.inl => exact ⟨rfl, rfl, by simp⟩
  case inr.inr.inr =>
    rcases exec_next_cases hu with ⟨c, -, rfl⟩ | ⟨-, b, rfl⟩ | ⟨-, m, -, rfl⟩ | ⟨index, value, m, rfl, hlt, htr, -, -⟩
    · exact ⟨rfl, rfl, by simp⟩
    · exact ⟨rfl, rfl, by simp⟩
    · exact ⟨rfl, rfl, by simp⟩
    · exact absurd ⟨index, value, hd, hlt, truncates_iff.mp htr⟩ (hset ha)

/-! ### Completing or faulting -/

/-- Settles O33: an accepted word with a cause takes the fault entry, and one without is a command in range, which completes
and writes no fault register. -/
theorem everyCommandCompletesOrFaults : Obligations.EveryCommandCompletesOrFaults := by
  unfold Obligations.EveryCommandCompletesOrFaults
  intro s w ha
  obtain ⟨-, hf, -, hcmd⟩ := id ha
  cases hc : faultCause s.cfg w with
  | some c =>
    dsimp only
    rw [step_of_faultCause ha hc, ← faultResponse_eq, ← hcmd]
    rfl
  | none =>
    obtain ⟨i, hd, hr⟩ := faultCause_eq_none_iff.mp hc
    obtain ⟨d, m, e, -, hexec⟩ := exec_completes s.storage hr
    have hstep := step_of_command ha hd
    rw [hexec s rfl rfl] at hstep
    exact ⟨_, completedResponse (warnBit s.cfg i) d, hstep, hf, rfl, rfl, rfl, rfl, rfl, rspFlt_completedResponse ..,
      rspCause_completedResponse ..⟩

/-! ### The order of the checks -/

/-- An element-view command past `LEN` has the cause INDEX_RANGE (rules R84, R141). -/
theorem rangeFault_of_index_ge (hop : i.opcode ∈ [0x1#4, 0x2#4, 0x3#4]) (h : cfg.len ≤ i.operand) :
    rangeFault cfg i = some .indexRange := by
  cases i with
  | get index => exact if_pos h
  | set index value => exact if_pos h
  | clr index => exact if_pos h
  | rdb addr => simp [Instr.opcode] at hop
  | wrb addr byte => simp [Instr.opcode] at hop

/-- A byte-view command past `NBYTES` has the cause BYTE_RANGE (rules R122, R141). -/
theorem rangeFault_of_addr_ge (hop : i.opcode ∈ [0x4#4, 0x5#4]) (h : cfg.nbytes ≤ i.operand) :
    rangeFault cfg i = some .byteRange := by
  cases i with
  | get index => simp [Instr.opcode] at hop
  | set index value => simp [Instr.opcode] at hop
  | clr index => simp [Instr.opcode] at hop
  | rdb addr => exact if_pos h
  | wrb addr byte => exact if_pos h

/-- A word with one of the five opcodes and `RSV = 0` has the range fault of its command, whose opcode and operand are the
word's (rules R62, R143). -/
theorem exists_faultCause_eq_rangeFault (cfg : Config) (hrsv : rsvField w = 0#4)
    (hop : opField w ∈ [0x1#4, 0x2#4, 0x3#4, 0x4#4, 0x5#4]) :
    ∃ i : Instr, opField w = i.opcode ∧ (idxField w).toNat = i.operand ∧ faultCause cfg w = rangeFault cfg i := by
  obtain ⟨i, hd⟩ := exists_command_iff.mpr ⟨hrsv, hop⟩
  obtain ⟨hopcode, hidx⟩ := fields_of_decode hd
  exact ⟨i, hopcode, hidx, faultCause_of_command hd⟩

theorem faultCause_of_idx_ge_len (hrsv : rsvField w = 0#4) (hop : opField w ∈ [0x1#4, 0x2#4, 0x3#4])
    (h : cfg.len ≤ (idxField w).toNat) : faultCause cfg w = some .indexRange := by
  have hsub : [0x1#4, 0x2#4, 0x3#4] ⊆ [0x1#4, 0x2#4, 0x3#4, 0x4#4, 0x5#4] := by decide
  obtain ⟨i, hopcode, hidx, hcause⟩ := exists_faultCause_eq_rangeFault cfg hrsv (hsub hop)
  exact hcause.trans (rangeFault_of_index_ge (hopcode ▸ hop) (hidx ▸ h))

theorem faultCause_of_idx_ge_nbytes (hrsv : rsvField w = 0#4) (hop : opField w ∈ [0x4#4, 0x5#4])
    (h : cfg.nbytes ≤ (idxField w).toNat) : faultCause cfg w = some .byteRange := by
  have hsub : [0x4#4, 0x5#4] ⊆ [0x1#4, 0x2#4, 0x3#4, 0x4#4, 0x5#4] := by decide
  obtain ⟨i, hopcode, hidx, hcause⟩ := exists_faultCause_eq_rangeFault cfg hrsv (hsub hop)
  exact hcause.trans (rangeFault_of_addr_ge (hopcode ▸ hop) (hidx ▸ h))

/-- A step that takes a fault shows its cause, no event and no pulse (rule R144). -/
theorem exists_step_faulted {c : Cause} (ha : Accepts s w) (hc : faultCause s.cfg w = some c) :
    ∃ t, step s = .next t ∧ t.fault = true ∧ t.fcause = causeCode c ∧ t.diag = s.diag ∧ t.warn = false :=
  ⟨_, step_of_faultCause ha hc, rfl, rfl, rfl, rfl⟩

/-- Settles O34: each clause's fields give the word's cause, or that it is a truncating SET, which alone warns. -/
theorem checksInOrder : Obligations.ChecksInOrder := by
  unfold Obligations.ChecksInOrder
  intro s w ha
  obtain ⟨-, hf, -, hcmd⟩ := id ha
  refine ⟨fun hillegal => ?illegal, fun hrsv hop hge => ?index, fun hrsv hop hge => ?byte,
    fun hrsv hop hlt htrunc => ?warning, fun t hstep hshows => ?warned⟩
  case illegal =>
    obtain ⟨why, hd⟩ := exists_illegal_iff.mpr (not_and_or.mpr hillegal)
    exact exists_step_faulted ha (faultCause_of_illegal hd)
  case index => exact exists_step_faulted ha (faultCause_of_idx_ge_len hrsv hop hge)
  case byte => exact exists_step_faulted ha (faultCause_of_idx_ge_nbytes hrsv hop hge)
  case warning =>
    have hd : decode w = .command (.set (idxField w).toNat (valField w)) :=
      decode_eq_command_iff.mpr ⟨hrsv, hop, rfl, fun _ => Option.some.inj⟩
    obtain ⟨m, hstep⟩ := step_of_truncatingSet ha hd hlt htrunc
    exact ⟨_, hstep, hf, rfl, rfl⟩
  case warned =>
    refine truncatingSet_fields (by_contra fun hset => ?_)
    obtain ⟨hdiag, hwarn, -⟩ := step_silent hstep fun _ => hcmd ▸ hset
    exact hshows.elim (ne_true_of_eq_false hwarn) (absurd hdiag)

/-! ### The warning over every step -/

/-- Settles O36: an accepted truncating SET appends its event, with the pulse and `WRN`, and any other step is silent. -/
theorem warningOnlyOfTruncatingSet : Obligations.WarningOnlyOfTruncatingSet := by
  unfold Obligations.WarningOnlyOfTruncatingSet
  intro s t h
  by_cases hset : Accepts s s.pins.cmd ∧ TruncatingSet s.cfg s.pins.cmd
  · obtain ⟨ha, index, value, hd, hlt, htrunc⟩ := hset
    obtain ⟨m, hstep⟩ := step_of_truncatingSet ha hd hlt htrunc
    obtain ⟨-, hf, -⟩ := id ha
    cases hstep.symm.trans h
    exact .inl ⟨ha, index, value, hd, hlt, htrunc, rfl, rfl, rfl, hf, rfl, rfl⟩
  · obtain ⟨hdiag, hwarn, hrsp⟩ := step_silent h (not_and.mp hset)
    exact .inr ⟨hdiag, hwarn, hrsp, hset⟩

/-! ### The halted block -/

/-- A halted block without `rst` has no step (rule R146). -/
theorem step_of_halted (hr : s.pins.rst = false) (hf : s.fault = true) : step s = .fault .halted := by
  rw [step, portEvent_of_halted hr hf]

/-- Settles O37: the port event is `stuck` without `rst` and `reset` with it, and reset clears the latch. -/
theorem haltedBlockTakesOnlyReset : Obligations.HaltedBlockTakesOnlyReset := by
  unfold Obligations.HaltedBlockTakesOnlyReset
  intro s hf
  have hlow : s.outputs.cmdReady = false := congrArg not hf
  exact ⟨hlow, fun hr => step_of_halted hr hf, fun hr => ⟨_, step_of_rst hr, rfl, rfl⟩⟩

end Sys2Proof.Machine
end

section
/-! PROOFS. Reset of a freshly reset block (70_reset_and_hazards.md). -/

namespace Sys2Proof.Machine

/-- A block that a reset step has left is a fixed point of `applyReset`: every field reset writes holds its reset value
already, and the host's drive, which has moved on, is none of them (rules R30, R172). -/
theorem applyReset_of_freshlyReset (s : State) :
    applyReset (advanceInputs (applyReset s)) = advanceInputs (applyReset s) := rfl

/-- Settles O40: the first step leaves a freshly reset block, which the second one's `applyReset` keeps; the host's drive
moves on. -/
theorem twoResetsAreOne : Obligations.TwoResetsAreOne := by
  unfold Obligations.TwoResetsAreOne
  intro s t hs hstep ht
  obtain rfl : advanceInputs (applyReset s) = t := Host.Outcome.next.inj ((step_of_rst hs).symm.trans hstep)
  rw [step_of_rst ht, applyReset_of_freshlyReset]
  rfl

end Sys2Proof.Machine
end

section
/-! PROOFS. The words of the test vectors, and the command listing (30_encoding.md section 5, 95_test_vectors.md). -/

namespace Sys2Proof.Machine

/-! ### Worked words -/

/-- Settles O5: each word is closed, so its fields and the command or illegality they give are computed. -/
theorem workedWordsDecode : Obligations.WorkedWordsDecode := by
  unfold Obligations.WorkedWordsDecode
  decide

/-! ### The digits of a number -/

/-- A hexadecimal digit is read back as its value. -/
theorem digitValue_hexDigit {d : Nat} (hd : d < 16) : digitValue (hexDigit d) = some d := by
  revert d
  decide

/-- Text that stands inside one operand: no comma splits it and no space is dropped from it (log entry 14). -/
def OperandText (cs : List Char) : Prop := ∀ c ∈ cs, c ≠ ',' ∧ c ≠ ' '

/-- A number in hexadecimal, from its digits: the common form of `listIndex` and `listByte`. -/
def hexNumber (ds : List Nat) : List Char := '0' :: 'x' :: ds.map hexDigit

/-- The value of hexadecimal digits on top of what stands before them. -/
def hexValue (acc : Nat) (ds : List Nat) : Nat := ds.foldl (fun a d => a * 16 + d) acc

/-- The four digits of an index. -/
def indexDigits (n : Nat) : List Nat := [n / 4096 % 16, n / 256 % 16, n / 16 % 16, n % 16]

/-- The two digits of a byte. -/
def byteDigits (b : Byte) : List Nat := [b.toNat / 16, b.toNat % 16]

theorem listIndex_eq_hexNumber (n : Nat) : listIndex n = hexNumber (indexDigits n) := rfl

theorem listByte_eq_hexNumber (b : Byte) : listByte b = hexNumber (byteDigits b) := rfl

theorem lt_of_mem_indexDigits {n d : Nat} (hd : d ∈ indexDigits n) : d < 16 := by
  simp only [indexDigits, List.mem_cons, List.not_mem_nil, or_false] at hd
  omega

theorem lt_of_mem_byteDigits {b : Byte} {d : Nat} (hd : d ∈ byteDigits b) : d < 16 := by
  have hb := b.isLt
  simp only [byteDigits, List.mem_cons, List.not_mem_nil, or_false] at hd
  omega

/-- Four digits write any index that `IDX` can carry. -/
theorem hexValue_indexDigits {n : Nat} (hn : fitsIndex n = true) : hexValue 0 (indexDigits n) = n := by
  have hlt : n < 2 ^ 16 := of_decide_eq_true hn
  simp only [hexValue, indexDigits, List.foldl_cons, List.foldl_nil]
  omega

/-- Two digits write any byte. -/
theorem hexValue_byteDigits (b : Byte) : hexValue 0 (byteDigits b) = b.toNat := by
  simp only [hexValue, byteDigits, List.foldl_cons, List.foldl_nil]
  omega

section
variable {ds : List Nat} (hds : ∀ d ∈ ds, d < 16)
include hds

/-- The reader accumulates the value of hexadecimal digits, most significant first. -/
theorem readDigits_map_hexDigit (acc : Nat) : readDigits 16 acc (ds.map hexDigit) = some (hexValue acc ds) := by
  induction ds generalizing acc with
  | nil => rfl
  | cons d ds ih =>
    obtain ⟨hd, htail⟩ := List.forall_mem_cons.mp hds
    simp only [List.map_cons, readDigits, digitValue_hexDigit hd, if_pos hd]
    exact ih htail _

/-- A hexadecimal number is read as the value of its digits (rule R70). -/
theorem readNumber_hexNumber (hne : ds ≠ []) : readNumber (hexNumber ds) = some (hexValue 0 ds) := by
  obtain ⟨d, ds, rfl⟩ := List.exists_cons_of_ne_nil hne
  exact readDigits_map_hexDigit hds 0

/-- A hexadecimal number is one operand. -/
theorem operandText_hexNumber : OperandText (hexNumber ds) := by
  have hdigit : ∀ d < 16, hexDigit d ≠ ',' ∧ hexDigit d ≠ ' ' := by decide
  simp only [OperandText, hexNumber, List.forall_mem_cons, List.forall_mem_map]
  exact ⟨by decide, by decide, fun d hd => hdigit d (hds d hd)⟩

end

theorem readNumber_listIndex {n : Nat} (hn : fitsIndex n = true) : readNumber (listIndex n) = some n := by
  rw [listIndex_eq_hexNumber, readNumber_hexNumber (fun _ => lt_of_mem_indexDigits) (List.cons_ne_nil _ _),
    hexValue_indexDigits hn]

theorem readNumber_listByte (b : Byte) : readNumber (listByte b) = some b.toNat := by
  rw [listByte_eq_hexNumber, readNumber_hexNumber (fun _ => lt_of_mem_byteDigits) (List.cons_ne_nil _ _),
    hexValue_byteDigits]

theorem operandText_listIndex (n : Nat) : OperandText (listIndex n) :=
  operandText_hexNumber fun _ => lt_of_mem_indexDigits

theorem operandText_listByte (b : Byte) : OperandText (listByte b) :=
  operandText_hexNumber fun _ => lt_of_mem_byteDigits

/-! ### The operands of a line -/

section
variable {as bs : List Char} {n v : Nat} (ha : OperandText as)
include ha

theorem filter_of_operandText : as.filter (fun c => decide (c ≠ ' ')) = as :=
  List.filter_eq_self.mpr fun c hc => decide_eq_true (ha c hc).2

/-- A comma is looked for behind the operand text only. -/
theorem splitComma_append : splitComma (as ++ bs) = (as ++ (splitComma bs).1, (splitComma bs).2) := by
  induction as with
  | nil => rfl
  | cons c cs ih =>
    obtain ⟨⟨hcomma, -⟩, htail⟩ := List.forall_mem_cons.mp ha
    simp only [List.cons_append, splitComma, if_neg hcomma, ih htail]

theorem splitComma_of_operandText : splitComma as = (as, none) := by
  simpa [splitComma] using splitComma_append (bs := []) ha

theorem splitComma_append_comma : splitComma (as ++ ',' :: bs) = (as, some bs) := by
  simpa [splitComma] using splitComma_append (bs := ',' :: bs) ha

theorem readOperands_one (hn : readNumber as = some n) : readOperands as = some (n, none) := by
  simp only [readOperands, filter_of_operandText ha, splitComma_of_operandText ha, hn]

/-- A comma and a space separate two operands (log entry 14). -/
theorem readOperands_two (hb : OperandText bs) (hn : readNumber as = some n) (hv : readNumber bs = some v) :
    readOperands (as ++ [',', ' '] ++ bs) = some (n, some v) := by
  have hfilter : (as ++ [',', ' '] ++ bs).filter (fun c => decide (c ≠ ' ')) = as ++ ',' :: bs := by
    simp only [List.filter_append, filter_of_operandText ha, filter_of_operandText hb, List.append_assoc]
    rfl
  simp only [readOperands, hfilter, splitComma_append_comma ha, hn, hv]

end

theorem readOperands_listIndex {n : Nat} (hn : fitsIndex n = true) : readOperands (listIndex n) = some (n, none) :=
  readOperands_one (operandText_listIndex n) (readNumber_listIndex hn)

theorem readOperands_listIndex_listByte {n : Nat} (hn : fitsIndex n = true) (b : Byte) :
    readOperands (listIndex n ++ [',', ' '] ++ listByte b) = some (n, some b.toNat) :=
  readOperands_two (operandText_listIndex n) (operandText_listByte b) (readNumber_listIndex hn) (readNumber_listByte b)

/-! ### What a line assembles to -/

/-- The operands of a command of an index alone: one number, which fits `IDX` (rule R70). -/
theorem assembleIndex_eq_some_iff {mk : Nat → Instr} {ops : Option (Nat × Option Nat)} {l : Line} :
    assembleIndex mk ops = some l ↔ ∃ n, ops = some (n, none) ∧ fitsIndex n = true ∧ .command (mk n) = l := by
  unfold assembleIndex
  split
  next n => simp
  next hops => simpa using fun n hn => absurd hn (hops n)

/-- The operands of a command of an index and a value: two numbers, which fit `IDX` and `VAL` (rule R70). -/
theorem assembleValue_eq_some_iff {mk : Nat → Byte → Instr} {ops : Option (Nat × Option Nat)} {l : Line} :
    assembleValue mk ops = some l ↔
      ∃ n v, ops = some (n, some v) ∧ fitsIndex n = true ∧ v < 256 ∧ .command (mk n (BitVec.ofNat 8 v)) = l := by
  unfold assembleValue
  split
  next n v => simp [and_assoc]
  next hops => simpa using fun n v hn => absurd hn (hops n v)

theorem assembleIndex_listIndex (mk : Nat → Instr) {n : Nat} (hn : fitsIndex n = true) :
    assembleIndex mk (readOperands (listIndex n)) = some (.command (mk n)) :=
  assembleIndex_eq_some_iff.mpr ⟨n, readOperands_listIndex hn, hn, rfl⟩

theorem assembleValue_listIndex_listByte (mk : Nat → Byte → Instr) {n : Nat} (hn : fitsIndex n = true) (b : Byte) :
    assembleValue mk (readOperands (listIndex n ++ [',', ' '] ++ listByte b)) = some (.command (mk n b)) :=
  assembleValue_eq_some_iff.mpr
    ⟨n, b.toNat, readOperands_listIndex_listByte hn b, hn, b.isLt, by rw [BitVec.ofNat_toNat, BitVec.setWidth_eq]⟩

/-- A command's line assembles to the command: its mnemonic selects the command, and its numbers read back. -/
theorem assemble_listing {i : Instr} (hwf : WellFormed i) : assemble (listing i) = some (.command i) := by
  cases i with
  | get index => exact assembleIndex_listIndex .get hwf
  | set index value => exact assembleValue_listIndex_listByte .set hwf value
  | clr index => exact assembleIndex_listIndex .clr hwf
  | rdb addr => exact assembleIndex_listIndex .rdb hwf
  | wrb addr byte => exact assembleValue_listIndex_listByte .wrb hwf byte

section
variable {i : Instr} {ops : Option (Nat × Option Nat)}

theorem wellFormed_of_assembleIndex {mk : Nat → Instr} (hmk : ∀ n, (mk n).wf = fitsIndex n)
    (h : assembleIndex mk ops = some (.command i)) : WellFormed i := by
  obtain ⟨n, -, hn, ⟨⟩⟩ := assembleIndex_eq_some_iff.mp h
  exact (hmk n).trans hn

theorem wellFormed_of_assembleValue {mk : Nat → Byte → Instr} (hmk : ∀ n v, (mk n v).wf = fitsIndex n)
    (h : assembleValue mk ops = some (.command i)) : WellFormed i := by
  obtain ⟨n, v, -, hn, -, ⟨⟩⟩ := assembleValue_eq_some_iff.mp h
  exact (hmk n _).trans hn

end

/-- Whatever the line, a command it assembles to has an encoding (rule R70). -/
theorem wellFormed_of_assemble {cs : List Char} {i : Instr} (h : assemble cs = some (.command i)) : WellFormed i := by
  unfold assemble at h
  split at h
  · cases h
  · exact wellFormed_of_assembleIndex (fun _ => rfl) h
  · exact wellFormed_of_assembleValue (fun _ _ => rfl) h
  · exact wellFormed_of_assembleIndex (fun _ => rfl) h
  · exact wellFormed_of_assembleIndex (fun _ => rfl) h
  · exact wellFormed_of_assembleValue (fun _ _ => rfl) h
  · cases h

/-- Settles O7: a well-formed command's line reads back, only well-formed commands come out of the assembler, and the
line `RESET` drives the reset input. -/
theorem listingAssembles : Obligations.ListingAssembles := by
  unfold Obligations.ListingAssembles
  exact ⟨fun _ => assemble_listing, fun _ hwf _ h => hwf (wellFormed_of_assemble h), rfl⟩

end Sys2Proof.Machine
end
